-- ==== Sys2Proof/Word.lean ====
section
/-! DEFINITION. The machine's one word size and the index type of its register file. -/

namespace Sys2Proof

/-- A byte: the contents of a register, of a memory cell, of PC and of FL (R6, R9, R14, R16, R23).
All values are unsigned. -/
abbrev Byte := BitVec 8

/-- A checked register index, 0 to 7 (R9). An operand byte becomes one only through `checkReg` (R12). -/
abbrev RegIx := Fin 8

end Sys2Proof
end

