-- ==== Sys2Proof/Syntax.lean ====
section
/-! DEFINITION. The instruction set as syntax: the nine tags of the closed opcode set (R37), the
Decoder's outputs (R38) and the decoded instructions with their operand bytes (R35). -/

namespace Sys2Proof

/-- The Decoder's `tag` output (R38), one per row of the opcode table (R37). -/
inductive Tag where
  | halt
  | loadImmediate
  | printRegister
  | mul
  | add
  | push
  | pop
  | call
  | ret
  deriving DecidableEq, Repr

/-- The Decoder's four outputs for a valid opcode byte (R38). -/
structure Decoded where
  tag          : Tag
  operandCount : Nat
  isAlu        : Bool
  setsPc       : Bool
  deriving DecidableEq, Repr

/-- One row of the opcode table (R37): an opcode byte and what the Decoder answers for it. -/
structure OpcodeRow where
  opcode : Byte
  out    : Decoded
  deriving DecidableEq, Repr

/-- A decoded instruction with its operand bytes (R35, R41). A register operand is the WHOLE operand
byte (R42): the Decoder does not look at it, so 8 to 255 are syntax and are rejected by the handler. -/
inductive Instr where
  /-- HALT (R56), format Z. -/
  | halt
  /-- LOAD_IMMEDIATE reg, value (R57), format RI. -/
  | loadImmediate (reg value : Byte)
  /-- PRINT_REGISTER reg (R58), format R. -/
  | printRegister (reg : Byte)
  /-- MUL reg_a, reg_b (R62), format RR. -/
  | mul (regA regB : Byte)
  /-- ADD reg_a, reg_b (R63), format RR. -/
  | add (regA regB : Byte)
  /-- PUSH reg (R65), format R. -/
  | push (reg : Byte)
  /-- POP reg (R66), format R. -/
  | pop (reg : Byte)
  /-- CALL reg (R68), format R. -/
  | call (reg : Byte)
  /-- RETURN (R69), format Z. -/
  | ret
  deriving DecidableEq, Repr

/-- The tag of a decoded instruction. -/
def Instr.tag : Instr → Tag
  | .halt => .halt
  | .loadImmediate _ _ => .loadImmediate
  | .printRegister _ => .printRegister
  | .mul _ _ => .mul
  | .add _ _ => .add
  | .push _ => .push
  | .pop _ => .pop
  | .call _ => .call
  | .ret => .ret

/-- The operand bytes an instruction uses as register indices, in order (R75). LOAD_IMMEDIATE's
`value` is not one of them. -/
def Instr.registerOperands : Instr → List Byte
  | .halt => []
  | .loadImmediate reg _ => [reg]
  | .printRegister reg => [reg]
  | .mul regA regB => [regA, regB]
  | .add regA regB => [regA, regB]
  | .push reg => [reg]
  | .pop reg => [reg]
  | .call reg => [reg]
  | .ret => []

end Sys2Proof
end

