-- ==== Sys2Proof/Decode.lean ====
section
/-! DEFINITION. The Decoder (R36 to R44): the opcode table, the combinational Decoder of one byte, the
assembly of an instruction from the three fetched bytes, a total decoder of byte lists, and the
encoder. -/

namespace Sys2Proof

/-- The closed opcode table with the Decoder's outputs, in the order of R37 and R38. -/
def opcodeTable : List OpcodeRow :=
  [ ⟨0b00000001#8, ⟨.halt, 0, false, false⟩⟩
  , ⟨0b10000010#8, ⟨.loadImmediate, 2, false, false⟩⟩
  , ⟨0b01000111#8, ⟨.printRegister, 1, false, false⟩⟩
  , ⟨0b10100010#8, ⟨.mul, 2, true, false⟩⟩
  , ⟨0b10100000#8, ⟨.add, 2, true, false⟩⟩
  , ⟨0b01000101#8, ⟨.push, 1, false, false⟩⟩
  , ⟨0b01000110#8, ⟨.pop, 1, false, false⟩⟩
  , ⟨0b01010000#8, ⟨.call, 1, false, true⟩⟩
  , ⟨0b00010001#8, ⟨.ret, 0, false, true⟩⟩ ]

/-- The Decoder (R38): a function of the opcode byte alone, an exact match of all eight bits (R39).
`none` is its failure with `InvalidOpcode` (R40). -/
def decoder (ir : Byte) : Option Decoded :=
  (opcodeTable.find? (fun row => row.opcode == ir)).map (·.out)

/-- Operand extraction (R41): the instruction of tag `t` made of the two eagerly fetched bytes; a byte
the format does not use is discarded. -/
def assemble (t : Tag) (opa opb : Byte) : Instr :=
  match t with
  | .halt => .halt
  | .loadImmediate => .loadImmediate opa opb
  | .printRegister => .printRegister opa
  | .mul => .mul opa opb
  | .add => .add opa opb
  | .push => .push opa
  | .pop => .pop opa
  | .call => .call opa
  | .ret => .ret

/-- Decoding as a cycle does it (R41, R48): the opcode byte and the two bytes fetched after it.
`none` is `InvalidOpcode`. -/
def decodeFetched (ir opa opb : Byte) : Option Instr :=
  (decoder ir).map (fun d => assemble d.tag opa opb)

/-- Why a list of bytes does not begin with an instruction. -/
inductive DecodeReject where
  /-- The first byte is none of the nine opcodes (R40). -/
  | invalidOpcode (byte : Byte)
  /-- The list ends before the operand bytes the opcode byte calls for (R36). -/
  | truncated
  deriving DecidableEq, Repr

/-- Decoding a list of bytes: the first instruction and the bytes after it (R34, R36, R44). Total. -/
def decode : List Byte → Except DecodeReject (Instr × List Byte)
  | [] => .error .truncated
  | ir :: rest =>
    match decoder ir with
    | none => .error (.invalidOpcode ir)
    | some d =>
      if rest.length < d.operandCount then .error .truncated
      else .ok (assemble d.tag (rest.getD 0 0#8) (rest.getD 1 0#8), rest.drop d.operandCount)

/-- The encoder: an instruction's bytes at ascending addresses, opcode first (R34, R35, R37). -/
def encode : Instr → List Byte
  | .halt => [0x01#8]
  | .loadImmediate reg value => [0x82#8, reg, value]
  | .printRegister reg => [0x47#8, reg]
  | .mul regA regB => [0xA2#8, regA, regB]
  | .add regA regB => [0xA0#8, regA, regB]
  | .push reg => [0x45#8, reg]
  | .pop reg => [0x46#8, reg]
  | .call reg => [0x50#8, reg]
  | .ret => [0x11#8]

/-- The longest instruction, in bytes (R34). -/
def maxLength : Nat := 3

/-- The bytes of an opcode-table word: byte `k` of the instruction is bits `8k+7 .. 8k` of the word
(the opcode byte lowest, R28), and every bit from `nbits` up is 0. -/
def tableBytes (nbits w : Nat) : List Byte :=
  (List.range maxLength).map (fun k => BitVec.ofNat 8 ((w % 2 ^ nbits) >>> (8 * k)))

/-- The instruction the decoder reads from a word numbered as spec/opcode_table.json numbers it. -/
def decodeTableWord (nbits w : Nat) : Option Instr :=
  match decode (tableBytes nbits w) with
  | .ok (i, _) => some i
  | .error _ => none

end Sys2Proof
end

