-- ==== Sys2Proof/Config.lean ====
section
/-! DEFINITION. What one implementation fixes: the single configuration parameter of R5. -/

namespace Sys2Proof

/-- The configuration of one machine instance (R5): `STACK_TOP`, the "configured top-of-stack
address", an integer in [0,255] that the spec leaves open. Every rule and every claim of this model
is about an arbitrary `Config`; the one value `State.reset` has to be given is chosen in
`Sys2Proof/Machine/ResetValues.lean` (log entry 1). -/
structure Config where
  stackTop : Byte
  deriving DecidableEq, Repr

end Sys2Proof
end

