-- ==== Sys2Proof/Machine/ResetValues.lean ====
section
/-! DEFINITION. The two values that the reset state is made with and that are the model's to name: the
sample configuration of `State.reset`, and what memory reads as before anything is written. -/

namespace Sys2Proof.Machine

/-- The configuration of the instance `State.reset` is the construction of. The spec gives `STACK_TOP`
no value (R5, D1); 244 is the sample configuration of its own test vectors.
DESIGN CHOICE, unsafe: log entry 1. `State.construct` takes any other. -/
def resetConfig : Config := { stackTop := 244#8 }

/-- What a memory cell that nothing has written reads as: memory is zero-initialised (R22, R90). -/
def unwrittenByte : Byte := 0#8

end Sys2Proof.Machine
end

