-- ==== Sys2Proof/Machine/State.lean ====
section
/-! DEFINITION. The complete state of one machine instance (10_state.md, the tuple at its head), as
plain data, and its value after construction (R22, R90). -/

namespace Sys2Proof.Machine

/-- The six kinds of fatal error, by the document's names; no numbers are assigned (R73, D14). -/
inductive ErrorKind where
  /-- The fetched byte matches no instruction (R74): step 2 of any cycle. -/
  | invalidOpcode
  /-- A used register operand is 8 to 255 (R75): the handlers with a register operand. -/
  | invalidRegister
  /-- An address above 255 (R76): the fetch at 254 and 255, the advance past 255. -/
  | outOfBounds
  /-- The ALU block was asked for an operation other than ADD and MUL (R77): no instruction does. -/
  | unsupportedOperation
  /-- PUSH or CALL with the stack pointer at 0 (R78). -/
  | stackOverflow
  /-- POP or RETURN with the stack pointer at or above `STACK_TOP` (R79). -/
  | stackUnderflow
  deriving DecidableEq, Repr

/-- The fault record `FAULT = (kind, pc, opcode)` (R19). -/
structure FaultRecord where
  kind   : ErrorKind
  pc     : Byte
  opcode : Byte
  deriving DecidableEq, Repr

/-- The run status `STATUS` (R17). -/
inductive Status where
  | running
  | halted
  | faulted
  deriving DecidableEq, Repr

/-- The 256 cells of R23, as the list of the cells that differ from `unwrittenByte`, addresses strictly
rising and below 256 (the canonical form `Memory.wf` of Machine/Ops.lean). -/
abbrev Memory := List Host.Cell

/-- The state of one machine instance. `config` is not state in the spec's sense: it is the instance's
fixed parameter (R5, R90), kept beside the state so that one `step` serves every `STACK_TOP`; no step
changes it. -/
structure State where
  /-- `x[0..7]`, eight 8-bit registers; `x[7]` is the stack pointer (R9, R10). -/
  regs   : Vector Byte 8
  /-- The program counter, 8 bits (R14). -/
  pc     : Byte
  /-- The flags register, 8 bits, never read or written by an instruction (R16). -/
  fl     : Byte
  /-- `MEM[0..255]` (R23). -/
  mem    : Memory
  /-- `STATUS` (R17). -/
  status : Status
  /-- `FAULT`; `none` while nothing has written it (R19 and the invariants of 10_state.md section 8). -/
  fault  : Option FaultRecord
  /-- The output channel `OUT`, oldest value first (R20). -/
  out    : List Byte
  /-- The instance's configuration: `STACK_TOP` (R5). -/
  config : Config
  deriving DecidableEq, Repr

/-- The reasons the MODEL could stop at with a fault. There are none: every fatal error of the machine
has an entry the spec describes (R80), and is a next state whose status is `faulted`. Safe. -/
inductive Fault : Type
  deriving DecidableEq, Repr

/-- The reasons the model refuses. No step answers one; the last four are raised by the host
transactions of Machine/HostInterface.lean. -/
inductive Refusal where
  /-- An instruction without a meaning; raised by nothing: all nine have theirs. Safe. -/
  | notModelled (mnemonic : String)
  /-- `load` of an image longer than 256 bytes breaks the contract of R91 (D11). Safe. -/
  | imageTooLong (length : Nat)
  /-- `load` a second time, or after the run (R91, R94). Safe. -/
  | loadOutOfOrder
  /-- `run` a second time (R94). Safe. -/
  | runOutOfOrder
  /-- `inspect` of an instance whose run has begun and not ended (R94, U18). Safe. -/
  | inspectWhileRunning
  deriving DecidableEq, Repr

/-- Construction, the machine's only reset (R22, R90), for any configuration: everything zero but the
stack pointer, which is `STACK_TOP`. -/
def State.construct (c : Config) : State where
  regs   := (Vector.replicate 8 0#8).set 7 c.stackTop
  pc     := 0#8
  fl     := 0#8
  mem    := []
  status := .running
  fault  := none
  out    := []
  config := c

/-- The machine right after reset, for the sample configuration `resetConfig`. -/
def State.reset : State := State.construct resetConfig

end Sys2Proof.Machine
end

