-- ==== Sys2Proof/Machine/Ops.lean ====
section
/-! DEFINITION. The shared operations: memory, registers, the output channel, the stack steps, the
fetch, the PC advance, and taking a fatal error. An operation that can raise answers
`Except ErrorKind`; what it computes is committed only by `complete`, so a cycle is atomic (R53). -/

namespace Sys2Proof.Machine

/-- The byte a memory list holds at `a`; an unlisted address reads as `unwrittenByte`. -/
def Memory.peek : Memory → Nat → Byte
  | [], _ => unwrittenByte
  | (k, v) :: m, a => if k = a then v else Memory.peek m a

/-- The memory list with `v` at `a`, keeping the canonical form. -/
def Memory.poke : Memory → Nat → Byte → Memory
  | [], a, v => if v = unwrittenByte then [] else [(a, v)]
  | (k, w) :: m, a, v =>
    if a < k then
      if v = unwrittenByte then (k, w) :: m else (a, v) :: (k, w) :: m
    else if a = k then
      if v = unwrittenByte then m else (a, v) :: m
    else (k, w) :: Memory.poke m a v

/-- The canonical form from address `lo` up: addresses strictly rising and below 256 (R23), no entry
equal to what an unlisted address reads as. -/
def Memory.wfFrom : Nat → Memory → Bool
  | _, [] => true
  | lo, (k, v) :: m =>
    decide (lo ≤ k) && decide (k < 256) && decide (v ≠ unwrittenByte) && Memory.wfFrom (k + 1) m

/-- The canonical form of memory: equal memories are equal lists. -/
def Memory.wf (m : Memory) : Bool := Memory.wfFrom 0 m

/-- `MemRead(addr, 1)` (R25): the bound is checked on the unreduced address. -/
def memRead (m : Memory) (addr : Nat) : Except ErrorKind Byte :=
  if addr > 255 then .error .outOfBounds else .ok (m.peek addr)

/-- `MemWrite(addr, 1, v)` (R26): the bound is checked on the unreduced address, the value is stored
modulo 256. -/
def memWrite (m : Memory) (addr v : Nat) : Except ErrorKind Memory :=
  if addr > 255 then .error .outOfBounds else .ok (m.poke addr (BitVec.ofNat 8 v))

/-- `MEM[a]`. -/
def State.byteAt (s : State) (a : Nat) : Byte := s.mem.peek a

/-- `x[i]` (R9). -/
def State.reg (s : State) (i : RegIx) : Byte := s.regs[i]

/-- The index of the stack pointer register (R10). -/
abbrev spIx : RegIx := 7

/-- `SP`, another spelling of `x[7]` (R10). -/
def State.sp (s : State) : Byte := s.reg spIx

/-- `x[i] <- v mod 256`, for any non-negative `v` (R11). -/
def State.writeReg (s : State) (i : RegIx) (v : Nat) : State :=
  { s with regs := s.regs.set i.val (BitVec.ofNat 8 v) }

/-- `pc <- target`. -/
def State.setPc (s : State) (target : Byte) : State := { s with pc := target }

/-- The memory replaced. -/
def State.setMem (s : State) (m : Memory) : State := { s with mem := m }

/-- `STATUS <- st`. -/
def State.setStatus (s : State) (st : Status) : State := { s with status := st }

/-- `Emit(v)`: append to the output channel (R20). -/
def State.emit (s : State) (v : Byte) : State := { s with out := s.out ++ [v] }

/-- A one-byte store to memory (R26). -/
def State.store (s : State) (addr v : Nat) : Except ErrorKind State := do
  let m ← memWrite s.mem addr v
  pure (s.setMem m)

/-- Where PUSH and CALL store: the cell below the stack pointer, or `StackOverflow` when the stack
pointer would go below 0 (R64, R78). -/
def pushAddress (s : State) : Except ErrorKind Nat :=
  if s.sp.toNat = 0 then .error .stackOverflow else .ok (s.sp.toNat - 1)

/-- `SP := SP - 1`, the first half of a push (R65, R68). -/
def decrementSp (s : State) : Except ErrorKind State := do
  let a ← pushAddress s
  pure (s.writeReg spIx a)

/-- Where POP and RETURN load from: the top-of-stack cell, or `StackUnderflow` when the stack pointer
is at or above `STACK_TOP` (R64, R79). -/
def popAddress (s : State) : Except ErrorKind Nat :=
  if s.sp.toNat ≥ s.config.stackTop.toNat then .error .stackUnderflow else .ok s.sp.toNat

/-- `memory[SP]`, the first half of a pop (R66, R69). -/
def loadTop (s : State) : Except ErrorKind Byte := do
  let a ← popAddress s
  memRead s.mem a

/-- `SP := SP + 1`, the second half of a pop, reduced by the register write (R11, R66, R69). -/
def State.incrementSp (s : State) : State := s.writeReg spIx (s.sp.toNat + 1)

/-- Step 1 of a cycle (R47): the byte at PC and, eagerly, the following two. The addresses do not
wrap, so the fetch raises `OutOfBounds` at 254 and 255. -/
def fetch (s : State) : Except ErrorKind (Byte × Byte × Byte) := do
  let ir ← memRead s.mem s.pc.toNat
  let opa ← memRead s.mem (s.pc.toNat + 1)
  let opb ← memRead s.mem (s.pc.toNat + 2)
  pure (ir, opa, opb)

/-- Steps 1 and 2 of a cycle (R47, R48): fetch and decode. -/
def fetchDecode (s : State) : Except ErrorKind Instr := do
  let (ir, opa, opb) ← fetch s
  match decodeFetched ir opa opb with
  | some i => pure i
  | none => .error .invalidOpcode

/-- Step 4 of a cycle for an instruction that does not set PC (R50): `PC += 1 + operand_count`; past
255 it raises `OutOfBounds` (R51). PC never wraps. -/
def autoAdvance (operandCount : Nat) (s : State) : Except ErrorKind State :=
  if s.pc.toNat + 1 + operandCount > 255 then .error .outOfBounds
  else .ok (s.setPc (BitVec.ofNat 8 (s.pc.toNat + 1 + operandCount)))

/-- Taking a fatal error of kind `k` (R80): `STATUS <- FAULTED`, `FAULT <- (k, p, MEM[p])`, and nothing
else changes. There is no return from it (R82). -/
def raise (k : ErrorKind) (s : State) : State :=
  { s with status := .faulted
           fault  := some { kind := k, pc := s.pc, opcode := s.byteAt s.pc.toNat } }

/-- The end of a cycle that started in `s` (R53): all of the instruction's writes take effect together,
or the error is taken from the state `s` itself. -/
def complete (s : State) (result : Except ErrorKind State) : Host.Outcome State Fault Refusal :=
  match result with
  | .ok s' => .next s'
  | .error k => .next (raise k s)

/-- What a machine that is not `RUNNING` does: nothing (R18, R46). -/
def idle (s : State) : Host.Outcome State Fault Refusal := .next s

/-- Bytes placed at consecutive ascending addresses from `a` up; what would fall outside memory is
dropped. Used to lay out images and instructions from outside, never by an instruction. -/
def Memory.placeBytes (m : Memory) (a : Nat) : List Byte → Memory
  | [] => m
  | b :: bs => Memory.placeBytes (if a > 255 then m else m.poke a b) (a + 1) bs

end Sys2Proof.Machine
end

