-- ==== Sys2Proof/Machine/Operands.lean ====
section
/-! DEFINITION. The operand forms (R41 to R43): a register index, checked, and the one immediate. The
machine has no addressing mode (R27). -/

namespace Sys2Proof.Machine

/-- `CheckReg(b)` (R12): the whole operand byte is compared; 8 to 255 raise `InvalidRegister`. -/
def checkReg (operand : Byte) : Except ErrorKind RegIx :=
  if h : operand.toNat < 8 then .ok ⟨operand.toNat, h⟩ else .error .invalidRegister

/-- The immediate `value` (R43): the whole byte, unsigned, used as it stands. -/
def immediate (operand : Byte) : Nat := operand.toNat

end Sys2Proof.Machine
end

