-- ==== Sys2Proof/Machine/Alu.lean ====
section
/-! DEFINITION. The ALU block (R59 to R61) and the two instructions routed through it, MUL (R62) and
ADD (R63). -/

namespace Sys2Proof.Machine

/-- The ALU's operation selector, an abstract enumeration (R59, D17). `other` stands for every request
outside ADD and MUL (R61); no instruction makes one. -/
inductive AluOp where
  | add
  | mul
  | other (selector : Nat)
  deriving DecidableEq, Repr

/-- The exact result of an ALU operation on unsigned operands (R60), before it is reduced by the
register write; any other selector is answered with `UnsupportedOperation` (R61). -/
def aluResult (op : AluOp) (x y : Byte) : Except ErrorKind Nat :=
  match op with
  | .add => .ok (x.toNat + y.toNat)
  | .mul => .ok (x.toNat * y.toNat)
  | .other _ => .error .unsupportedOperation

/-- The ALU block (R59): reads `x[a]` and `x[b]`, writes `x[a]` modulo 256, touches nothing else. -/
def aluBlock (op : AluOp) (a b : RegIx) (s : State) : Except ErrorKind State := do
  let v ← aluResult op (s.reg a) (s.reg b)
  pure (s.writeReg a v)

/-- MUL reg_a, reg_b (R62): `reg_a := (reg_a * reg_b) mod 256` via ALU. -/
def execMul (regA regB : Byte) (s : State) : Host.Outcome State Fault Refusal :=
  complete s do
    let a ← checkReg regA
    let b ← checkReg regB
    let s1 ← aluBlock .mul a b s
    autoAdvance 2 s1

/-- ADD reg_a, reg_b (R63): `reg_a := (reg_a + reg_b) mod 256` via ALU. -/
def execAdd (regA regB : Byte) (s : State) : Host.Outcome State Fault Refusal :=
  complete s do
    let a ← checkReg regA
    let b ← checkReg regB
    let s1 ← aluBlock .add a b s
    autoAdvance 2 s1

end Sys2Proof.Machine
end

