-- ==== Sys2Proof/Machine/Control.lean ====
section
/-! DEFINITION. CALL (R68) and RETURN (R69), the PC-setting instructions: no auto-advance (R50). -/

namespace Sys2Proof.Machine

/-- CALL reg (R68): pushes the return address `PC + 2`, then sets `PC := reg's value`, read after the
push (D5). -/
def execCall (reg : Byte) (s : State) : Host.Outcome State Fault Refusal :=
  complete s do
    let r ← checkReg reg
    let s1 ← decrementSp s
    let s2 ← s1.store s1.sp.toNat (s.pc.toNat + 2)
    pure (s2.setPc (s2.reg r))

/-- RETURN (R69): `PC := memory[SP]; SP := SP + 1`. -/
def execRet (s : State) : Host.Outcome State Fault Refusal :=
  complete s do
    let target ← loadTop s
    pure (s.setPc target).incrementSp

end Sys2Proof.Machine
end

