-- ==== Sys2Proof/Machine/HaltLoadPrint.lean ====
section
/-! DEFINITION. HALT (R56), LOAD_IMMEDIATE (R57), PRINT_REGISTER (R58). -/

namespace Sys2Proof.Machine

/-- HALT (R56): the advance of step 4, then the halt of step 5 (R52). -/
def execHalt (s : State) : Host.Outcome State Fault Refusal :=
  complete s do
    let s1 ← autoAdvance 0 s
    pure (s1.setStatus .halted)

/-- LOAD_IMMEDIATE reg, value (R57): `reg := value`. -/
def execLoadImmediate (reg value : Byte) (s : State) : Host.Outcome State Fault Refusal :=
  complete s do
    let r ← checkReg reg
    autoAdvance 2 (s.writeReg r (immediate value))

/-- PRINT_REGISTER reg (R58): appends `reg`'s value to the output channel. -/
def execPrintRegister (reg : Byte) (s : State) : Host.Outcome State Fault Refusal :=
  complete s do
    let r ← checkReg reg
    autoAdvance 1 (s.emit (s.reg r))

end Sys2Proof.Machine
end

