-- ==== Sys2Proof/Machine/Stack.lean ====
section
/-! DEFINITION. PUSH (R65) and POP (R66). The document's two statements are done in the order written,
each seeing the other's effect (D5). -/

namespace Sys2Proof.Machine

/-- PUSH reg (R65): `SP := SP - 1; memory[SP] := reg`; the register is read after the decrement. -/
def execPush (reg : Byte) (s : State) : Host.Outcome State Fault Refusal :=
  complete s do
    let r ← checkReg reg
    let s1 ← decrementSp s
    let s2 ← s1.store s1.sp.toNat (s1.reg r).toNat
    autoAdvance 1 s2

/-- POP reg (R66): `reg := memory[SP]; SP := SP + 1`; the stack pointer is read after the load. -/
def execPop (reg : Byte) (s : State) : Host.Outcome State Fault Refusal :=
  complete s do
    let r ← checkReg reg
    let v ← loadTop s
    autoAdvance 1 (s.writeReg r v.toNat).incrementSp

end Sys2Proof.Machine
end

