-- ==== Sys2Proof/Machine/Dispatch.lean ====
section
/-! DEFINITION. Step 3 of a cycle, dispatch (R49): one arm per constructor of `Instr`, no default. -/

namespace Sys2Proof.Machine

/-- The handler of a decoded instruction with steps 4 and 5 of its cycle (R49 to R52). -/
def exec (i : Instr) (s : State) : Host.Outcome State Fault Refusal :=
  match i with
  | .halt => Sys2Proof.Machine.execHalt s
  | .loadImmediate reg value => Sys2Proof.Machine.execLoadImmediate reg value s
  | .printRegister reg => Sys2Proof.Machine.execPrintRegister reg s
  | .mul regA regB => Sys2Proof.Machine.execMul regA regB s
  | .add regA regB => Sys2Proof.Machine.execAdd regA regB s
  | .push reg => Sys2Proof.Machine.execPush reg s
  | .pop reg => Sys2Proof.Machine.execPop reg s
  | .call reg => Sys2Proof.Machine.execCall reg s
  | .ret => Sys2Proof.Machine.execRet s

end Sys2Proof.Machine
end

