-- ==== Sys2Proof/Machine/Step.lean ====
section
/-! DEFINITION. One step of the machine: one whole cycle (R46, R55). -/

namespace Sys2Proof.Machine

/-- One step (R46): while `RUNNING`, fetch and decode (R47, R48) and then the instruction (R49 to R52),
or the fatal error of the fetch or the decode (R80); otherwise nothing. -/
def step (s : State) : Host.Outcome State Fault Refusal :=
  match s.status with
  | .running =>
    match fetchDecode s with
    | .ok i => exec i s
    | .error k => complete s (.error k)
  | .halted => idle s
  | .faulted => idle s

/-- The state with an opcode-table word's three bytes at PC, PC + 1 and PC + 2, where the next step
fetches (R47); the instruction's own bytes first, the bits above `nbits` zero. Nothing else changes.
At PC 254 and 255 no instruction can be fetched, whatever is stored (R47). -/
def State.withFetchWord (s : State) (nbits w : Nat) : State :=
  s.setMem (s.mem.placeBytes s.pc.toNat (tableBytes nbits w))

end Sys2Proof.Machine
end

