-- ==== Sys2Proof/Machine/Flags.lean ====
section
/-! DEFINITION. The flags register (R16): it exists, no instruction reads or writes it, and ADD and MUL
record no carry, overflow, zero or sign. So the machine has no flag computation; FL is seen by the
host's inspection alone (R94). -/

namespace Sys2Proof.Machine

/-- FL as the host's inspection reads it. -/
def readFlags (s : State) : Byte := s.fl

end Sys2Proof.Machine
end

