-- ==== Sys2Proof/Machine/HostInterface.lean ====
section
/-! DEFINITION. The host's side of the machine (R91, R94, R95, R97): the transactions construct, load,
run, output and inspect, over a session that remembers which of them have happened. -/

namespace Sys2Proof.Machine

/-- `Load(image)` (R91): the image's bytes at address 0 and up; nothing else changes. -/
def loadImage (image : List Byte) (s : State) : State :=
  s.setMem (s.mem.placeBytes 0 image)

/-- The cycles of a run, at most `fuel` of them (R54); `fuel` is the host's cap, outside the machine
(R97). -/
def runCycles : Nat → State → State
  | 0, s => s
  | fuel + 1, s =>
    match s.status with
    | .running =>
      match step s with
      | .next s' => runCycles fuel s'
      | .fault _ => s
      | .refused _ => s
    | .halted => s
    | .faulted => s

/-- What a run tells the host (R94, R95): the clean halt, the fatal error with its record, or, when the
host stopped driving cycles, neither (R97, D12). -/
inductive RunResult where
  | cleanHalt
  | fatalError (record : FaultRecord)
  | outOfFuel
  deriving DecidableEq, Repr

/-- The result of the run that left `s`. A faulted state without a record is one no run reaches
(`State.Inv`); it has no result either. -/
def runResult (s : State) : RunResult :=
  match s.status, s.fault with
  | .halted, _ => .cleanHalt
  | .faulted, some record => .fatalError record
  | .faulted, none => .outOfFuel
  | .running, _ => .outOfFuel

/-- How far the host has gone with one instance (R94). -/
inductive Phase where
  | constructed
  | loaded
  | ran
  deriving DecidableEq, Repr

/-- One instance as its host holds it. -/
structure Session where
  phase   : Phase
  machine : State
  deriving DecidableEq, Repr

/-- Transaction construct (R90, R94). -/
def Session.construct (c : Config) : Session := { phase := .constructed, machine := .construct c }

/-- Transaction load (R91, R94): once, after construct, before run, at most 256 bytes. -/
def Session.load (image : List Byte) (h : Session) : Except Refusal Session :=
  match h.phase with
  | .constructed =>
    if image.length > 256 then .error (.imageTooLong image.length)
    else .ok { phase := .loaded, machine := loadImage image h.machine }
  | .loaded => .error .loadOutOfOrder
  | .ran => .error .loadOutOfOrder

/-- Transaction run (R94), once, after load, or after construct for an empty image. -/
def Session.run (fuel : Nat) (h : Session) : Except Refusal (Session × RunResult) :=
  match h.phase with
  | .ran => .error .runOutOfOrder
  | .constructed => let s := runCycles fuel h.machine; .ok ({ phase := .ran, machine := s }, runResult s)
  | .loaded => let s := runCycles fuel h.machine; .ok ({ phase := .ran, machine := s }, runResult s)

/-- What the host may inspect (R94): a register, PC, FL or a memory cell. -/
inductive Query where
  | register (i : RegIx)
  | pc
  | fl
  | cell (address : Byte)
  deriving DecidableEq, Repr

/-- The current value of what a query names. -/
def answer (q : Query) (s : State) : Byte :=
  match q with
  | .register i => s.reg i
  | .pc => s.pc
  | .fl => readFlags s
  | .cell a => s.byteAt a.toNat

/-- Transaction inspect (R94): before the run, or after it has ended; it changes nothing. -/
def Session.inspect (q : Query) (h : Session) : Except Refusal Byte :=
  match h.phase, h.machine.status with
  | .ran, .running => .error .inspectWhileRunning
  | _, _ => .ok (answer q h.machine)

/-- The text of one output value (R20): its decimal numeral, no sign, no leading zeros. -/
def outputText (v : Byte) : String := toString v.toNat

/-- Transaction output (R94): each emitted value, in order, as text. What separates two of them is the
host's. -/
def outputTexts (s : State) : List String := s.out.map outputText

end Sys2Proof.Machine
end

