-- ==== Sys2Proof/Safety.lean ====
section
/-! DEFINITION. The terms claims are stated in: the machine's invariant (10_state.md section 8), the
priority table of R81 and the whole cycle of R55, each written from the spec's own text and apart from
the step function. -/

namespace Sys2Proof.Machine

/-- What holds in every reachable state: memory is in canonical form and FL is 0 (R16); `FAULT` has been
written exactly when the machine is faulted, and then names PC and the byte there (R19, R80), never
`UnsupportedOperation` (R77); a halted machine stands one past a HALT byte (R52, R95). -/
structure State.Inv (s : State) : Prop where
  memory_wf     : s.mem.wf = true
  fl_zero       : s.fl = 0#8
  fault_written : s.status = .faulted ↔ s.fault.isSome = true
  fault_precise : ∀ f, s.fault = some f →
    f.kind ≠ .unsupportedOperation ∧ f.pc = s.pc ∧ f.opcode = s.byteAt s.pc.toNat
  halt_byte     : s.status = .halted →
    1 ≤ s.pc.toNat ∧ s.byteAt (s.pc.toNat - 1) = 0x01#8

/-- The nine opcode bytes (R37, R40). -/
def validOpcodes : List Byte :=
  [0x01#8, 0x11#8, 0x45#8, 0x46#8, 0x47#8, 0x50#8, 0x82#8, 0xA0#8, 0xA2#8]

/-- The error a cycle reports, by the table of R81: the first of its five checks that applies. -/
def reportedError (s : State) : Option ErrorKind :=
  let p := s.pc.toNat
  let ir := s.byteAt p
  let opa := (s.byteAt (p + 1)).toNat
  let opb := (s.byteAt (p + 2)).toNat
  let sp := (s.reg 7).toNat
  if p + 2 > 255 then some .outOfBounds
  else if ir ∉ validOpcodes then some .invalidOpcode
  else if ir ∈ [0x82#8, 0x47#8, 0xA2#8, 0xA0#8, 0x45#8, 0x46#8, 0x50#8] ∧ opa > 7 then
    some .invalidRegister
  else if ir ∈ [0xA2#8, 0xA0#8] ∧ opb > 7 then some .invalidRegister
  else if ir ∈ [0x45#8, 0x50#8] ∧ sp = 0 then some .stackOverflow
  else if ir ∈ [0x46#8, 0x11#8] ∧ sp ≥ s.config.stackTop.toNat then some .stackUnderflow
  else if ir ∈ [0x82#8, 0xA2#8, 0xA0#8] ∧ p + 3 > 255 then some .outOfBounds
  else none

/-- A register's value by its number, for the operand bytes `writesOf` has already seen checked. -/
def State.regNat (s : State) (i : Nat) : Nat := if h : i < 8 then (s.reg ⟨i, h⟩).toNat else 0

/-- A register's contents replaced, by its number. -/
def State.withReg (s : State) (i v : Nat) : State :=
  if h : i < 8 then { s with regs := s.regs.set i (BitVec.ofNat 8 v) } else s

/-- The writes of a cycle that raises nothing, PC and `STATUS` among them, by the handler pseudocode of
R56, R57, R58, R62, R63, R65, R66, R68 and R69, in numbers. -/
def writesOf (s : State) : State :=
  let p := s.pc.toNat
  let ir := s.byteAt p
  let opa := (s.byteAt (p + 1)).toNat
  let opb := (s.byteAt (p + 2)).toNat
  let sp := s.regNat 7
  let next := fun (t : State) (n : Nat) => { t with pc := BitVec.ofNat 8 n }
  if ir = 0x01#8 then { next s (p + 1) with status := .halted }
  else if ir = 0x82#8 then next (s.withReg opa opb) (p + 3)
  else if ir = 0x47#8 then next { s with out := s.out ++ [BitVec.ofNat 8 (s.regNat opa)] } (p + 2)
  else if ir = 0xA2#8 then next (s.withReg opa ((s.regNat opa * s.regNat opb) % 256)) (p + 3)
  else if ir = 0xA0#8 then next (s.withReg opa ((s.regNat opa + s.regNat opb) % 256)) (p + 3)
  else if ir = 0x45#8 then
    let t := s.withReg 7 (sp - 1)
    next { t with mem := t.mem.poke (sp - 1) (BitVec.ofNat 8 (t.regNat opa)) } (p + 2)
  else if ir = 0x46#8 then
    let t := s.withReg opa (s.byteAt sp).toNat
    next (t.withReg 7 (t.regNat 7 + 1)) (p + 2)
  else if ir = 0x50#8 then
    let t := s.withReg 7 (sp - 1)
    next { t with mem := t.mem.poke (sp - 1) (BitVec.ofNat 8 (p + 2)) } (t.regNat opa)
  else if ir = 0x11#8 then next (s.withReg 7 (sp + 1)) (s.byteAt sp).toNat
  else s

/-- The whole cycle in one piece (R55): the first error that applies is taken, otherwise all writes are
applied. -/
def wholeCycle (s : State) : State :=
  match reportedError s with
  | some k => raise k s
  | none => writesOf s

end Sys2Proof.Machine
end

