-- ==== Sys2Proof/WellFormed.lean ====
section
/-! DEFINITION. The check an instruction's operands have to pass (R12, R42). -/

namespace Sys2Proof

/-- An operand byte names a register (R12): the whole byte is compared, nothing is masked off. -/
def namesRegister (operand : Byte) : Bool := operand.toNat ≤ 7

/-- Every operand byte used as a register index names a register (R42, R75). The encoding itself
admits any operand byte: an instruction that fails this check decodes, and its handler raises
`InvalidRegister`. -/
def Instr.wellFormed (i : Instr) : Bool := i.registerOperands.all namesRegister

end Sys2Proof
end

