-- ==== Sys2Proof/Certificates/Slice0/Obligations.lean ====
section
/-! DEFINITION. The statements for the provers. A docstring names the rule of spec/ a statement
formalises, and the spec's own decisions (D<n> of 92_eei_decisions.md) or the model's choices (log
entry <n>) it rests on. Register 7 is the stack pointer (R10); `raise k s` is the fault entry of R80. -/

open Sys2Proof Sys2Proof.Machine

/-! ### Reset, load, run -/

/-- The state after construction, for every `STACK_TOP` (R22, R90; OUT and FL rest on D8 and D6). -/
def Obligations.ConstructGivesTheResetValues : Prop :=
  ∀ c : Config,
    (∀ i : RegIx, (State.construct c).reg i = if i = 7 then c.stackTop else 0#8) ∧
    (State.construct c).pc = 0#8 ∧ (State.construct c).fl = 0#8 ∧
    (∀ a, a ≤ 255 → memRead (State.construct c).mem a = .ok 0#8) ∧
    (State.construct c).status = .running ∧ (State.construct c).fault = none ∧
    (State.construct c).out = [] ∧ (State.construct c).config = c

/-- The image load (R91): after it the cells hold the image and then zeros, and nothing but memory has
changed. -/
def Obligations.LoadedImageIsMemory : Prop :=
  ∀ (c : Config) (image : List Byte), image.length ≤ 256 →
    ∃ h, Session.load image (Session.construct c) = .ok h ∧ h.phase = .loaded ∧
      h.machine = { State.construct c with mem := h.machine.mem } ∧
      h.machine.mem.wf = true ∧
      ∀ a, a ≤ 255 → memRead h.machine.mem a = .ok (image.getD a 0#8)

/-- What is no transaction of the block is refused (R91 and R94 with D9, D11, U18; log entry 6): a
longer image, a second load, a load after the run, a second run, and inspection of an instance whose
run has not ended. -/
def Obligations.HostTransactionsOutOfOrderAreRefused : Prop :=
  (∀ (c : Config) (image : List Byte), 256 < image.length →
    Session.load image (Session.construct c) = .error (.imageTooLong image.length)) ∧
  (∀ (h : Session) (image : List Byte), h.phase ≠ .constructed →
    Session.load image h = .error .loadOutOfOrder) ∧
  (∀ (h : Session) (fuel : Nat), h.phase = .ran → Session.run fuel h = .error .runOutOfOrder) ∧
  (∀ (h : Session) (q : Query), h.phase = .ran → h.machine.status = .running →
    Session.inspect q h = .error .inspectWhileRunning)

/-- A run is the repetition of cycles (R54): the session's runner and the host's `Core.run` agree. The
step of a stopped machine is the model's (log entry 3). -/
def Obligations.RunIsTheRepetitionOfCycles : Prop :=
  ∀ (n : Nat) (s : State), Host.Core.run Sys2Proof.core n s = .next (runCycles n s)

/-- A run that has ended keeps its end (R95): more fuel changes nothing. -/
def Obligations.EndedRunKeepsItsEnd : Prop :=
  ∀ (n m : Nat) (s : State), (runCycles n s).status ≠ .running → n ≤ m →
    runCycles m s = runCycles n s

/-- `HALTED` and `FAULTED` are terminal (R18), however the machine is driven on. That a stopped step
answers the same state is the model's choice (log entry 3), and so is the form of the host's side: once
the run has begun, a load and a second run are refused (log entry 6, with D11). -/
def Obligations.StoppedMachineIsFrozen : Prop :=
  ∀ (n : Nat) (s : State), s.status ≠ .running →
    Host.Core.run Sys2Proof.core n s = .next s ∧ runCycles n s = s ∧
    ∀ (image : List Byte) (h : Session), h.machine = s → h.phase = .ran →
      Session.load image h = .error .loadOutOfOrder ∧ Session.run n h = .error .runOutOfOrder

/-! ### Memory and registers -/

/-- Both accesses are bounds-checked on the unreduced address (R25, R26); a write changes exactly one
cell and stores its value modulo 256. The canonical form, which is assumed of the memory before and
holds of it after, is the model's choice (log entry 5). -/
def Obligations.MemoryReadsBackWrites : Prop :=
  ∀ (m : Memory) (addr v : Nat), m.wf = true →
    (255 < addr →
      memRead m addr = .error .outOfBounds ∧ memWrite m addr v = .error .outOfBounds) ∧
    (addr ≤ 255 →
      memRead m addr = .ok (m.peek addr) ∧
      ∃ m', memWrite m addr v = .ok m' ∧ m'.wf = true ∧
        memRead m' addr = .ok (BitVec.ofNat 8 v) ∧
        ∀ b, b ≠ addr → memRead m' b = memRead m b)

/-- The model's canonical form (log entry 5): memories with the same 256 cells (R23) are equal data. -/
def Obligations.MemoryIsDeterminedByItsReads : Prop :=
  ∀ m m' : Memory, m.wf = true → m'.wf = true →
    (∀ a, a ≤ 255 → memRead m a = memRead m' a) → m = m'

/-- R9 and R11: a register reads as what was last written to it modulo 256, no register is hard-wired,
and a register write touches nothing else. -/
def Obligations.RegisterFileReadsBackWrites : Prop :=
  ∀ (s : State) (i : RegIx) (v : Nat),
    ((s.writeReg i v).reg i).toNat = v % 256 ∧
    (∀ j, j ≠ i → (s.writeReg i v).reg j = s.reg j) ∧
    s.writeReg i v = { s with regs := (s.writeReg i v).regs }

/-! ### Encoding -/

/-- R37, the nine rows written out bit by bit, and no other opcode byte. -/
def Obligations.OpcodeWordsDecode : Prop :=
  decode [0b00000001#8] = .ok (.halt, []) ∧
  (∀ a b : Byte, decode [0b10000010#8, a, b] = .ok (.loadImmediate a b, [])) ∧
  (∀ a : Byte, decode [0b01000111#8, a] = .ok (.printRegister a, [])) ∧
  (∀ a b : Byte, decode [0b10100010#8, a, b] = .ok (.mul a b, [])) ∧
  (∀ a b : Byte, decode [0b10100000#8, a, b] = .ok (.add a b, [])) ∧
  (∀ a : Byte, decode [0b01000101#8, a] = .ok (.push a, [])) ∧
  (∀ a : Byte, decode [0b01000110#8, a] = .ok (.pop a, [])) ∧
  (∀ a : Byte, decode [0b01010000#8, a] = .ok (.call a, [])) ∧
  decode [0b00010001#8] = .ok (.ret, []) ∧
  (∀ (ir : Byte) (rest : List Byte),
    ir ∉ [0x01#8, 0x82#8, 0x47#8, 0xA2#8, 0xA0#8, 0x45#8, 0x46#8, 0x50#8, 0x11#8] →
    decode (ir :: rest) = .error (.invalidOpcode ir))

/-- R36: the opcode byte alone tells the length, by its bits 7:6, which are never 3 in a valid opcode. -/
def Obligations.LengthIsInTheTopBits : Prop :=
  (∀ (ir : Byte) (d : Decoded), decoder ir = some d →
    d.operandCount = (ir >>> 6).toNat ∧ (ir >>> 6).toNat ≤ 2) ∧
  (∀ (ir : Byte) (tail rest : List Byte) (i : Instr), decode (ir :: tail) = .ok (i, rest) →
    tail.length = (ir >>> 6).toNat + rest.length)

/-- Decoding and encoding agree in both directions (R34 to R38, R41, R42): the bytes that decode to `i`
are exactly its encoding, with every operand at every value, whatever follows. -/
def Obligations.DecodeAndEncodeAgree : Prop :=
  ∀ (bytes rest : List Byte) (i : Instr),
    decode bytes = .ok (i, rest) ↔ bytes = encode i ++ rest

/-- R41: a fetched byte beyond the operand count is never interpreted. -/
def Obligations.DiscardedBytesAreNotInterpreted : Prop :=
  ∀ (ir opa opb opa' opb' : Byte) (d : Decoded), decoder ir = some d →
    (d.operandCount = 1 → decodeFetched ir opa opb = decodeFetched ir opa opb') ∧
    (d.operandCount = 0 → decodeFetched ir opa opb = decodeFetched ir opa' opb')

/-! ### The cycle -/

/-- A step of a running machine runs the instruction whose bytes stand at PC (R46 to R49), named by the
decoder or by its encoding. PC is at most 253 by R47 (D2). -/
def Obligations.StepRunsTheDecodedInstruction : Prop :=
  ∀ (s : State) (i : Instr), s.status = .running → s.pc.toNat ≤ 253 →
    (decodeFetched (s.byteAt s.pc.toNat) (s.byteAt (s.pc.toNat + 1))
        (s.byteAt (s.pc.toNat + 2)) = some i → step s = exec i s) ∧
    ((∀ (k : Nat) (h : k < (encode i).length), s.byteAt (s.pc.toNat + k) = (encode i)[k]) →
      step s = exec i s)

/-- The model's own operation `withFetchWord` (log entry 4) places a table word where the next step
fetches, and the step runs that instruction. -/
def Obligations.FetchWordRunsNext : Prop :=
  ∀ (s : State) (nbits w : Nat) (i : Instr), s.status = .running → s.pc.toNat ≤ 253 →
    s.mem.wf = true → decodeTableWord nbits w = some i →
    step (s.withFetchWord nbits w) = exec i (s.withFetchWord nbits w)

/-- R47: the eager fetch at 254 and 255 raises `OutOfBounds` whatever byte is at PC (D2). -/
def Obligations.FetchAtTheTopOfMemoryFaults : Prop :=
  ∀ s : State, s.status = .running → 254 ≤ s.pc.toNat →
    step s = .next { s with
      status := .faulted, fault := some ⟨.outOfBounds, s.pc, s.byteAt s.pc.toNat⟩ }

/-- R74: a byte outside the closed set raises `InvalidOpcode` with the faulting address, and a cycle
whose decode has succeeded never does. -/
def Obligations.InvalidOpcodeFaults : Prop :=
  ∀ s : State, s.status = .running → s.pc.toNat ≤ 253 →
    (s.byteAt s.pc.toNat ∉ validOpcodes →
      step s = .next { s with
        status := .faulted, fault := some ⟨.invalidOpcode, s.pc, s.byteAt s.pc.toNat⟩ }) ∧
    (s.byteAt s.pc.toNat ∈ validOpcodes →
      ∀ t f, step s = .next t → t.fault = some f → f.kind = .invalidOpcode → s.fault = some f)

/-- R53 and R80 (with D7, D9): a cycle that ends faulted has written `STATUS` and `FAULT` and nothing
else, and the record names PC and the byte there. -/
def Obligations.FaultCommitsNothingElse : Prop :=
  (∀ s t : State, s.status = .running → step s = .next t → t.status = .faulted →
    ∃ k, t = { s with status := .faulted, fault := some ⟨k, s.pc, s.byteAt s.pc.toNat⟩ }) ∧
  (∀ (i : Instr) (s t : State), s.status = .running → exec i s = .next t → t.status = .faulted →
    ∃ k, t = { s with status := .faulted, fault := some ⟨k, s.pc, s.byteAt s.pc.toNat⟩ })

/-- The machine has no stuck state (93_implementation_defined.md, end of part 1): every state has a
next one, and no instruction stops the model. That a stopped machine steps to itself is log entry 3. -/
def Obligations.EveryStepAnswersNext : Prop :=
  (∀ s : State, ∃ t, step s = .next t) ∧ (∀ (i : Instr) (s : State), ∃ t, exec i s = .next t)

/-- R77: the ALU block answers any other request with `UnsupportedOperation`, and no cycle raises it. -/
def Obligations.UnsupportedOperationIsUnreachable : Prop :=
  (∀ (n : Nat) (a b : RegIx) (s : State),
    aluBlock (.other n) a b s = .error .unsupportedOperation) ∧
  (∀ (s t : State) (f : FaultRecord), step s = .next t → t.fault = some f →
    f.kind = .unsupportedOperation → s.fault = some f)

/-- R55 with the priority of R81 (D2, D3, D4, D5, D7, D10, D15): one step is the whole cycle of the
pseudocode, written apart from the step function in Safety.lean. -/
def Obligations.StepIsTheWholeCycle : Prop :=
  ∀ s : State, s.status = .running → step s = .next (wholeCycle s)

/-- Every step keeps the invariant, from every state that meets it (10_state.md section 8). -/
def Obligations.StepKeepsTheInvariant : Prop :=
  ∀ s t : State, s.Inv → step s = .next t → t.Inv

/-- Every constructed machine meets the invariant, the model's reset state among them. -/
def Obligations.ConstructionMeetsTheInvariant : Prop :=
  (∀ c : Config, (State.construct c).Inv) ∧ State.reset.Inv

/-- So does every state of every run of every image, under every configuration. -/
def Obligations.EveryRunKeepsTheInvariant : Prop :=
  ∀ (c : Config) (image : List Byte) (h h' : Session) (fuel : Nat) (r : RunResult),
    Session.load image (Session.construct c) = .ok h → Session.run fuel h = .ok (h', r) →
    h'.machine.Inv

/-- R16 (D6) and R5: nothing writes FL, and `STACK_TOP` is fixed for the instance's lifetime. -/
def Obligations.FlagsAndConfigurationNeverChange : Prop :=
  (∀ s t : State, step s = .next t → t.fl = s.fl ∧ t.config = s.config) ∧
  (∀ (i : Instr) (s t : State), exec i s = .next t → t.fl = s.fl ∧ t.config = s.config)

/-- R16 and R20: no behaviour depends on FL, and the machine cannot read `OUT`. -/
def Obligations.FlagsAndOutputDoNotInfluence : Prop :=
  ∀ (s t : State) (f : Byte) (o : List Byte), step s = .next t →
    step { s with fl := f, out := o ++ s.out } = .next { t with fl := f, out := o ++ t.out }

/-- R20: `OUT` only grows, by one value per successful PRINT_REGISTER. -/
def Obligations.OutputGrowsOnlyByPrint : Prop :=
  ∀ s t : State, step s = .next t →
    t.out = s.out ∨
    (s.status = .running ∧ t.status = .running ∧ s.byteAt s.pc.toNat = 0x47#8 ∧
      ∃ r : RegIx, r.val = (s.byteAt (s.pc.toNat + 1)).toNat ∧ t.out = s.out ++ [s.reg r])

/-- R27: the only cell a cycle may write is the one below the stack pointer, in PUSH and CALL. -/
def Obligations.OnlyPushAndCallStore : Prop :=
  ∀ s t : State, step s = .next t →
    t.mem = s.mem ∨
    (s.status = .running ∧ s.byteAt s.pc.toNat ∈ [0x45#8, 0x50#8] ∧ 1 ≤ (s.reg 7).toNat ∧
      ∀ a, a ≠ (s.reg 7).toNat - 1 → t.byteAt a = s.byteAt a)

/-- R46 and R52: `HALTED` is reached by a HALT and by nothing else, with PC one past it (D15). -/
def Obligations.HaltedIsReachedByHaltAlone : Prop :=
  ∀ s t : State, s.status = .running → step s = .next t →
    (t.status = .halted ↔ s.pc.toNat ≤ 253 ∧ s.byteAt s.pc.toNat = 0x01#8) ∧
    (t.status = .halted → t.pc.toNat = s.pc.toNat + 1)

/-- A handler that does not set PC is followed by `PC += 1 + operand_count` (R50), the Decoder's own
count; that HALT's is too, so that PC ends one past it, is D15 (log entry 11). The handlers that set PC
are exactly CALL's and RETURN's, and after them PC is what they set (R68, R69); CALL R7 is in
`CallCompletes` (D5). -/
def Obligations.AdvanceFollowsTheDecoder : Prop :=
  ∀ (i : Instr) (ir : Byte) (operands : List Byte) (d : Decoded), encode i = ir :: operands →
    decoder ir = some d →
    (d.setsPc = true ↔ i.tag = .call ∨ i.tag = .ret) ∧
    ∀ s t : State, exec i s = .next t → t.status ≠ .faulted →
      (d.setsPc = false → t.pc.toNat = s.pc.toNat + 1 + d.operandCount) ∧
      (∀ r : RegIx, r ≠ 7 → i = .call (BitVec.ofNat 8 r.val) → t.pc = s.reg r) ∧
      (i = .ret → t.pc = s.byteAt (s.reg 7).toNat)

/-! ### What each instruction does -/

/-- R56: HALT completes wherever it can be fetched; the advance comes before the halt (D15). -/
def Obligations.HaltCompletes : Prop :=
  ∀ s : State, s.pc.toNat ≤ 253 →
    exec .halt s = .next { s with pc := s.pc + 1#8, status := .halted }

/-- R43: LOAD_IMMEDIATE's immediate is the whole second operand byte, and reading the register yields
it. Everything else is unchanged but PC. At 253 the advance faults: `AdvancePastTheEndFaults`. -/
def Obligations.LoadImmediateCompletes : Prop :=
  ∀ (reg value : Byte) (r : RegIx), r.val = reg.toNat →
    decodeFetched 0x82#8 reg value = some (.loadImmediate reg value) ∧
    ∀ s : State, s.pc.toNat ≤ 252 → ∃ t, exec (.loadImmediate reg value) s = .next t ∧
      t.reg r = value ∧
      t = { s with regs := s.regs.set r.val value, pc := s.pc + 3#8 }

/-- R58: PRINT_REGISTER appends the register's value to `OUT` and advances; nothing else changes. -/
def Obligations.PrintRegisterCompletes : Prop :=
  ∀ (reg : Byte) (r : RegIx) (s : State), r.val = reg.toNat → s.pc.toNat ≤ 253 →
    exec (.printRegister reg) s = .next { s with out := s.out ++ [s.reg r], pc := s.pc + 2#8 }

/-- R60: ADD and MUL leave the exact sum and product modulo 256 in the first register, wrap silently and
record no flag; everything else is unchanged but PC. Both operands are read before the write, so one
register may be both. At 253 the advance faults: `AdvancePastTheEndFaults`. -/
def Obligations.AddAndMulComplete : Prop :=
  ∀ (regA regB : Byte) (a b : RegIx) (s : State), a.val = regA.toNat → b.val = regB.toNat →
    s.pc.toNat ≤ 252 →
    exec (.add regA regB) s = .next { s with
      regs := s.regs.set a.val (BitVec.ofNat 8 (((s.reg a).toNat + (s.reg b).toNat) % 256))
      pc := s.pc + 3#8 } ∧
    exec (.mul regA regB) s = .next { s with
      regs := s.regs.set a.val (BitVec.ofNat 8 (((s.reg a).toNat * (s.reg b).toNat) % 256))
      pc := s.pc + 3#8 }

/-- R65: PUSH. There is no upper check on the stack pointer (D16), and PUSH R7 stores the decremented
stack pointer (D5). -/
def Obligations.PushCompletes : Prop :=
  ∀ (reg : Byte) (r : RegIx) (s : State), r.val = reg.toNat → s.pc.toNat ≤ 253 →
    1 ≤ (s.reg 7).toNat →
    exec (.push reg) s = .next { s with
      regs := s.regs.set 7 (s.reg 7 - 1#8)
      mem := s.mem.poke ((s.reg 7).toNat - 1) (if r = 7 then s.reg 7 - 1#8 else s.reg r)
      pc := s.pc + 2#8 }

/-- R66: POP. POP R7 leaves the loaded value plus one, modulo 256, in the stack pointer (D5). -/
def Obligations.PopCompletes : Prop :=
  ∀ (reg : Byte) (r : RegIx) (s : State), r.val = reg.toNat → s.pc.toNat ≤ 253 →
    (s.reg 7).toNat < s.config.stackTop.toNat →
    exec (.pop reg) s = .next { s with
      regs :=
        if r = 7 then s.regs.set 7 (s.byteAt (s.reg 7).toNat + 1#8)
        else (s.regs.set r.val (s.byteAt (s.reg 7).toNat)).set 7 (s.reg 7 + 1#8)
      pc := s.pc + 2#8 }

/-- R68: CALL pushes the return address and sets PC to the register, read after the push, so CALL R7
goes to the decremented stack pointer (D5). -/
def Obligations.CallCompletes : Prop :=
  ∀ (reg : Byte) (r : RegIx) (s : State), r.val = reg.toNat → s.pc.toNat ≤ 253 →
    1 ≤ (s.reg 7).toNat →
    exec (.call reg) s = .next { s with
      regs := s.regs.set 7 (s.reg 7 - 1#8)
      mem := s.mem.poke ((s.reg 7).toNat - 1) (s.pc + 2#8)
      pc := if r = 7 then s.reg 7 - 1#8 else s.reg r }

/-- R69: RETURN takes the byte on top of the stack as the new PC. -/
def Obligations.ReturnCompletes : Prop :=
  ∀ s : State, (s.reg 7).toNat < s.config.stackTop.toNat →
    exec .ret s = .next { s with
      regs := s.regs.set 7 (s.reg 7 + 1#8)
      pc := s.byteAt (s.reg 7).toNat }

/-! ### Where each instruction takes a fatal error -/

/-- A used register operand above 7 raises `InvalidRegister` in all seven instructions that have one,
with the record of R75; no other operand byte ever does. Where a stack error applies as well, in PUSH,
CALL and POP, that this kind is the one reported is the order of R81, the spec's choice D4 (log
entry 13). -/
def Obligations.InvalidRegisterFaults : Prop :=
  ∀ (i : Instr) (s : State),
    ((∃ b ∈ i.registerOperands, 7 < b.toNat) →
      exec i s = .next { s with
        status := .faulted, fault := some ⟨.invalidRegister, s.pc, s.byteAt s.pc.toNat⟩ }) ∧
    ((∀ b ∈ i.registerOperands, b.toNat ≤ 7) →
      ∀ t f, exec i s = .next t → t.fault = some f → f.kind = .invalidRegister →
        s.fault = some f)

/-- PUSH and CALL with the stack pointer at 0 raise `StackOverflow`, leave it at 0 and store nothing
(R78); no other instruction and no other value does. CALL's check is the spec's reading D10 (R64, C9;
log entry 12). -/
def Obligations.StackOverflowFaults : Prop :=
  (∀ (reg : Byte) (s : State), reg.toNat ≤ 7 → s.reg 7 = 0#8 →
    exec (.push reg) s = .next { s with
      status := .faulted, fault := some ⟨.stackOverflow, s.pc, s.byteAt s.pc.toNat⟩ } ∧
    exec (.call reg) s = .next { s with
      status := .faulted, fault := some ⟨.stackOverflow, s.pc, s.byteAt s.pc.toNat⟩ }) ∧
  (∀ (i : Instr) (s t : State) (f : FaultRecord), exec i s = .next t → t.fault = some f →
    f.kind = .stackOverflow → s.fault ≠ some f →
    (i.tag = .push ∨ i.tag = .call) ∧ s.reg 7 = 0#8)

/-- POP and RETURN with the stack pointer at or above `STACK_TOP` raise `StackUnderflow` and load nothing
(R79); no other instruction and no other value does. RETURN's check is the spec's reading D10 (R64, C9;
log entry 12). -/
def Obligations.StackUnderflowFaults : Prop :=
  (∀ s : State, s.config.stackTop.toNat ≤ (s.reg 7).toNat →
    exec .ret s = .next { s with
      status := .faulted, fault := some ⟨.stackUnderflow, s.pc, s.byteAt s.pc.toNat⟩ } ∧
    ∀ reg : Byte, reg.toNat ≤ 7 →
      exec (.pop reg) s = .next { s with
        status := .faulted, fault := some ⟨.stackUnderflow, s.pc, s.byteAt s.pc.toNat⟩ }) ∧
  (∀ (i : Instr) (s t : State) (f : FaultRecord), exec i s = .next t → t.fault = some f →
    f.kind = .stackUnderflow → s.fault ≠ some f →
    (i.tag = .pop ∨ i.tag = .ret) ∧ s.config.stackTop.toNat ≤ (s.reg 7).toNat)

/-- R51 (D3): a three-byte instruction at 253 raises `OutOfBounds` and commits nothing. -/
def Obligations.AdvancePastTheEndFaults : Prop :=
  ∀ (i : Instr) (s : State),
    i.tag = .loadImmediate ∨ i.tag = .mul ∨ i.tag = .add → i.wellFormed = true →
    s.pc.toNat = 253 →
    exec i s = .next { s with
      status := .faulted, fault := some ⟨.outOfBounds, s.pc, s.byteAt s.pc.toNat⟩ }

/-! ### What each instruction leaves unchanged -/

/-- The frame of HALT, LOAD_IMMEDIATE and PRINT_REGISTER (R13, R27): no memory; of the registers only
LOAD_IMMEDIATE's `reg`; of `OUT` only PRINT_REGISTER's append; `FAULT` only by a fatal error. -/
def Obligations.HaltLoadPrintFrame : Prop :=
  (∀ s t : State, exec .halt s = .next t →
    t.regs = s.regs ∧ t.fl = s.fl ∧ t.out = s.out ∧ t.config = s.config ∧
    (t.fault = s.fault ∨ t.status = .faulted) ∧ ∀ a, t.byteAt a = s.byteAt a) ∧
  (∀ (reg value : Byte) (s t : State), exec (.loadImmediate reg value) s = .next t →
    (∀ i : RegIx, i.val ≠ reg.toNat → t.reg i = s.reg i) ∧
    t.fl = s.fl ∧ t.out = s.out ∧ t.config = s.config ∧
    (t.status = s.status ∧ t.fault = s.fault ∨ t.status = .faulted) ∧
    ∀ a, t.byteAt a = s.byteAt a) ∧
  (∀ (reg : Byte) (s t : State), exec (.printRegister reg) s = .next t →
    t.regs = s.regs ∧ t.fl = s.fl ∧ t.config = s.config ∧ s.out <+: t.out ∧
    (t.status = s.status ∧ t.fault = s.fault ∨ t.status = .faulted) ∧
    ∀ a, t.byteAt a = s.byteAt a)

/-- The frame of MUL and ADD (R13, R59): only the destination register and PC; no memory, no flag, no
output. -/
def Obligations.AddAndMulFrame : Prop :=
  ∀ (regA regB : Byte) (s t : State),
    exec (.add regA regB) s = .next t ∨ exec (.mul regA regB) s = .next t →
    (∀ i : RegIx, i.val ≠ regA.toNat → t.reg i = s.reg i) ∧
    t.fl = s.fl ∧ t.out = s.out ∧ t.config = s.config ∧
    (t.status = s.status ∧ t.fault = s.fault ∨ t.status = .faulted) ∧
    ∀ a, t.byteAt a = s.byteAt a

/-- The frame of PUSH and CALL (R13, R27): of the registers only the stack pointer; of memory only the
cell at `pushAddress`, computed as the meaning does, and no cell where that raises. -/
def Obligations.PushAndCallFrame : Prop :=
  ∀ (reg : Byte) (s t : State),
    exec (.push reg) s = .next t ∨ exec (.call reg) s = .next t →
    (∀ i : RegIx, i ≠ 7 → t.reg i = s.reg i) ∧
    t.fl = s.fl ∧ t.out = s.out ∧ t.config = s.config ∧
    (t.status = s.status ∧ t.fault = s.fault ∨ t.status = .faulted) ∧
    (∀ a, pushAddress s = .ok a → ∀ b, b ≠ a → t.byteAt b = s.byteAt b) ∧
    (∀ k, pushAddress s = .error k → ∀ b, t.byteAt b = s.byteAt b)

/-- The frame of POP and RETURN (R13, R27): the stack pointer and POP's `reg`; no memory, the popped
cell included. -/
def Obligations.PopAndReturnFrame : Prop :=
  (∀ (reg : Byte) (s t : State), exec (.pop reg) s = .next t →
    (∀ i : RegIx, i ≠ 7 → i.val ≠ reg.toNat → t.reg i = s.reg i) ∧
    t.fl = s.fl ∧ t.out = s.out ∧ t.config = s.config ∧
    (t.status = s.status ∧ t.fault = s.fault ∨ t.status = .faulted) ∧
    ∀ a, t.byteAt a = s.byteAt a) ∧
  (∀ s t : State, exec .ret s = .next t →
    (∀ i : RegIx, i ≠ 7 → t.reg i = s.reg i) ∧
    t.fl = s.fl ∧ t.out = s.out ∧ t.config = s.config ∧
    (t.status = s.status ∧ t.fault = s.fault ∨ t.status = .faulted) ∧
    ∀ a, t.byteAt a = s.byteAt a)

/-! ### Two instructions in sequence -/

/-- The document's property of the stack (R66, last corner case): PUSH then POP moves the value and
restores the stack pointer, when neither register is register 7 and the stack pointer is in
[1, STACK_TOP]. -/
def Obligations.PushThenPopMovesTheValue : Prop :=
  ∀ (regA regB : Byte) (a b : RegIx) (s : State), a.val = regA.toNat → b.val = regB.toNat →
    a ≠ 7 → b ≠ 7 → s.mem.wf = true → s.pc.toNat ≤ 251 →
    1 ≤ (s.reg 7).toNat → (s.reg 7).toNat ≤ s.config.stackTop.toNat →
    ∃ t u, exec (.push regA) s = .next t ∧ exec (.pop regB) t = .next u ∧
      u.reg b = s.reg a ∧ u.reg 7 = s.reg 7 ∧ u.pc.toNat = s.pc.toNat + 4

/-- The document's property of CALL and RETURN (R68, R69, R70): the return address is on the stack, and
a RETURN that finds it there comes back to it with the stack pointer restored. -/
def Obligations.CallThenReturnComesBack : Prop :=
  ∀ (reg : Byte) (r : RegIx) (s : State), r.val = reg.toNat → r ≠ 7 → s.mem.wf = true →
    s.pc.toNat ≤ 253 → 1 ≤ (s.reg 7).toNat → (s.reg 7).toNat ≤ s.config.stackTop.toNat →
    ∃ t u, exec (.call reg) s = .next t ∧ exec .ret t = .next u ∧
      t.pc = s.reg r ∧ (t.byteAt ((s.reg 7).toNat - 1)).toNat = s.pc.toNat + 2 ∧
      u.pc.toNat = s.pc.toNat + 2 ∧ u.regs = s.regs ∧ u.mem = t.mem

/-- R33: a byte PUSH stores where the next instruction begins is the byte the very next cycle executes:
an invalid one faults, a HALT halts. -/
def Obligations.StoredByteIsFetchedNext : Prop :=
  ∀ (s : State) (r : RegIx), s.status = .running → s.mem.wf = true →
    s.byteAt s.pc.toNat = 0x45#8 → (s.byteAt (s.pc.toNat + 1)).toNat = r.val → r ≠ 7 →
    s.pc.toNat ≤ 251 → (s.reg 7).toNat = s.pc.toNat + 3 →
    ∃ t, step s = .next t ∧ t.pc.toNat = s.pc.toNat + 2 ∧
      t.byteAt t.pc.toNat = s.reg r ∧
      (s.reg r ∉ validOpcodes → step t = .next (raise .invalidOpcode t)) ∧
      (s.reg r = 0x01#8 → step t = .next { t with pc := t.pc + 1#8, status := .halted })
end

