-- ==== Sys2Proof/Laws/Decoder.lean ====
section
/-! SUPPORT. The Decoder, case by case: all it can answer, and that the table's rows do not overlap. -/

namespace Sys2Proof

/-- No two rows of the opcode table share an opcode byte (R37, R39). -/
theorem opcodeTable_rows_differ : opcodeTable.Pairwise (fun a b => a.opcode ≠ b.opcode) := by decide

/-- All the Decoder can answer (R38): one of the nine rows, or its failure on any other byte. -/
theorem decoder_cases (ir : Byte) :
    (ir = 0x01#8 ∧ decoder ir = some ⟨.halt, 0, false, false⟩) ∨
    (ir = 0x82#8 ∧ decoder ir = some ⟨.loadImmediate, 2, false, false⟩) ∨
    (ir = 0x47#8 ∧ decoder ir = some ⟨.printRegister, 1, false, false⟩) ∨
    (ir = 0xA2#8 ∧ decoder ir = some ⟨.mul, 2, true, false⟩) ∨
    (ir = 0xA0#8 ∧ decoder ir = some ⟨.add, 2, true, false⟩) ∨
    (ir = 0x45#8 ∧ decoder ir = some ⟨.push, 1, false, false⟩) ∨
    (ir = 0x46#8 ∧ decoder ir = some ⟨.pop, 1, false, false⟩) ∨
    (ir = 0x50#8 ∧ decoder ir = some ⟨.call, 1, false, true⟩) ∨
    (ir = 0x11#8 ∧ decoder ir = some ⟨.ret, 0, false, true⟩) ∨
    ((ir ≠ 0x01#8 ∧ ir ≠ 0x82#8 ∧ ir ≠ 0x47#8 ∧ ir ≠ 0xA2#8 ∧ ir ≠ 0xA0#8 ∧ ir ≠ 0x45#8 ∧
      ir ≠ 0x46#8 ∧ ir ≠ 0x50#8 ∧ ir ≠ 0x11#8) ∧ decoder ir = none) := by
  revert ir
  decide

/-- Decoding the fetched bytes follows the Decoder. -/
theorem decodeFetched_of_decoder (ir opa opb : Byte) (d : Decoded) (h : decoder ir = some d) :
    decodeFetched ir opa opb = some (assemble d.tag opa opb) := by
  simp [decodeFetched, h]

/-- An invalid opcode byte decodes to nothing, whatever follows it (R40). -/
theorem decodeFetched_of_invalid (ir opa opb : Byte) (h : decoder ir = none) :
    decodeFetched ir opa opb = none := by
  simp [decodeFetched, h]

/-- A valid opcode has at most two operand bytes (R36). -/
theorem decoder_operandCount_le (ir : Byte) (d : Decoded) (h : decoder ir = some d) :
    d.operandCount ≤ 2 := by
  have all : ∀ b : Byte, ((decoder b).map (·.operandCount)).getD 0 ≤ 2 := by decide
  simpa [h] using all ir

/-- The three fetched bytes decode as the list of them does. -/
theorem decode_eq_ok_of_fetched (ir opa opb : Byte) (i : Instr)
    (h : decodeFetched ir opa opb = some i) :
    ∃ rest, decode [ir, opa, opb] = .ok (i, rest) := by
  obtain ⟨d, hd, rfl⟩ := Option.map_eq_some_iff.mp h
  have hc : ¬ [opa, opb].length < d.operandCount :=
    Nat.not_lt.mpr (decoder_operandCount_le ir d hd)
  simp only [decode, hd]
  rw [if_neg hc]
  exact ⟨_, rfl⟩

end Sys2Proof
end

