-- ==== Sys2Proof/Laws/Memory.lean ====
section
/-! SUPPORT. The laws of memory: every operation keeps the canonical form, a read after a write, and
equal reads mean equal memories. -/

namespace Sys2Proof.Machine

/-- A write leaves every other address alone. -/
theorem peek_poke_other (m : Memory) (a b : Nat) (v : Byte) (h : a ≠ b) :
    (m.poke a v).peek b = m.peek b := by
  induction m with
  | nil =>
    by_cases hv : v = unwrittenByte <;> simp [Memory.poke, Memory.peek, hv, h]
  | cons c m ih =>
    obtain ⟨k, w⟩ := c
    simp only [Memory.poke]
    split
    · split <;> simp [Memory.peek, h]
    · split
      · rename_i hk
        subst hk
        split <;> simp [Memory.peek, h]
      · simp [Memory.peek, ih]

/-- Below the lowest listed address nothing is listed. -/
theorem peek_below (m : Memory) (lo a : Nat) (h : Memory.wfFrom lo m = true) (ha : a < lo) :
    m.peek a = unwrittenByte := by
  induction m generalizing lo with
  | nil => rfl
  | cons c m ih =>
    obtain ⟨k, w⟩ := c
    simp only [Memory.wfFrom, Bool.and_eq_true, decide_eq_true_eq] at h
    obtain ⟨⟨⟨hlo, -⟩, -⟩, hm⟩ := h
    have hk : k ≠ a := by omega
    simp only [Memory.peek, hk, if_false]
    exact ih (k + 1) hm (by omega)

/-- A read of the address just written gives the byte written. -/
theorem peek_poke_same_from (m : Memory) (lo a : Nat) (v : Byte) (h : Memory.wfFrom lo m = true) :
    (m.poke a v).peek a = v := by
  induction m generalizing lo with
  | nil =>
    by_cases hv : v = unwrittenByte <;> simp [Memory.poke, Memory.peek, hv]
  | cons c m ih =>
    obtain ⟨k, w⟩ := c
    simp only [Memory.wfFrom, Bool.and_eq_true, decide_eq_true_eq] at h
    obtain ⟨⟨⟨-, -⟩, -⟩, hm⟩ := h
    simp only [Memory.poke]
    split
    · rename_i hak
      split
      · rename_i hv
        have hk : k ≠ a := by omega
        simp only [Memory.peek, hk, if_false, hv]
        exact peek_below m (k + 1) a hm (by omega)
      · simp [Memory.peek]
    · split
      · rename_i hak
        subst hak
        split
        · rename_i hv
          rw [hv]
          exact peek_below m (a + 1) a hm (by omega)
        · simp [Memory.peek]
      · rename_i hne
        have hk : ¬ k = a := fun e => hne e.symm
        simp only [Memory.peek, hk, if_false]
        exact ih (k + 1) hm

/-- A read of the address just written gives the byte written. -/
theorem peek_poke_same (m : Memory) (a : Nat) (v : Byte) (h : m.wf = true) :
    (m.poke a v).peek a = v :=
  peek_poke_same_from m 0 a v h

/-- Reading after writing, at any address. -/
theorem peek_poke (m : Memory) (a b : Nat) (v : Byte) (h : m.wf = true) :
    (m.poke a v).peek b = if a = b then v else m.peek b := by
  split
  · rename_i hab
    subst hab
    exact peek_poke_same m a v h
  · exact peek_poke_other m a b v ‹_›

/-- A lower bound of the listed addresses may be lowered. -/
theorem wfFrom_mono (m : Memory) (lo lo' : Nat) (h : Memory.wfFrom lo m = true) (hl : lo' ≤ lo) :
    Memory.wfFrom lo' m = true := by
  cases m with
  | nil => rfl
  | cons c m =>
    obtain ⟨k, w⟩ := c
    simp only [Memory.wfFrom, Bool.and_eq_true, decide_eq_true_eq] at h ⊢
    exact ⟨⟨⟨by omega, h.1.1.2⟩, h.1.2⟩, h.2⟩

/-- A write inside memory keeps the canonical form. -/
theorem wfFrom_poke (m : Memory) (lo a : Nat) (v : Byte) (h : Memory.wfFrom lo m = true)
    (hlo : lo ≤ a) (ha : a < 256) : Memory.wfFrom lo (m.poke a v) = true := by
  induction m generalizing lo with
  | nil =>
    by_cases hv : v = unwrittenByte <;> simp [Memory.poke, Memory.wfFrom, hv, hlo, ha]
  | cons c m ih =>
    obtain ⟨k, w⟩ := c
    have h' := h
    simp only [Memory.wfFrom, Bool.and_eq_true, decide_eq_true_eq] at h
    obtain ⟨⟨⟨hlk, hk⟩, hw⟩, hm⟩ := h
    simp only [Memory.poke]
    split
    · rename_i hak
      split
      · exact h'
      · rename_i hv
        simp only [Memory.wfFrom, Bool.and_eq_true, decide_eq_true_eq]
        exact ⟨⟨⟨hlo, ha⟩, hv⟩, ⟨⟨by omega, hk⟩, hw⟩, hm⟩
    · split
      · rename_i hak
        subst hak
        split
        · exact wfFrom_mono m (a + 1) lo hm (by omega)
        · rename_i hv
          simp only [Memory.wfFrom, Bool.and_eq_true, decide_eq_true_eq]
          exact ⟨⟨⟨hlo, ha⟩, hv⟩, hm⟩
      · simp only [Memory.wfFrom, Bool.and_eq_true, decide_eq_true_eq]
        exact ⟨⟨⟨hlk, hk⟩, hw⟩, ih (k + 1) hm (by omega)⟩

/-- A write inside memory keeps the canonical form. -/
theorem wf_poke (m : Memory) (a : Nat) (v : Byte) (h : m.wf = true) (ha : a < 256) :
    (m.poke a v).wf = true :=
  wfFrom_poke m 0 a v h (Nat.zero_le a) ha

/-- `MemRead` in range (R25). -/
theorem memRead_ok (m : Memory) (a : Nat) (h : a ≤ 255) : memRead m a = .ok (m.peek a) := by
  simp [memRead, Nat.not_lt.mpr h]

/-- `MemRead` out of range (R25). -/
theorem memRead_error (m : Memory) (a : Nat) (h : 255 < a) : memRead m a = .error .outOfBounds := by
  simp [memRead, h]

/-- `MemWrite` in range (R26). -/
theorem memWrite_ok (m : Memory) (a v : Nat) (h : a ≤ 255) :
    memWrite m a v = .ok (m.poke a (BitVec.ofNat 8 v)) := by
  simp [memWrite, Nat.not_lt.mpr h]

/-- `MemWrite` out of range (R26). -/
theorem memWrite_error (m : Memory) (a v : Nat) (h : 255 < a) :
    memWrite m a v = .error .outOfBounds := by
  simp [memWrite, h]

/-- All that `MemWrite` can do: it keeps the canonical form. -/
theorem memWrite_wf (m m' : Memory) (a v : Nat) (h : m.wf = true) (hw : memWrite m a v = .ok m') :
    m'.wf = true := by
  unfold memWrite at hw
  split at hw
  · cases hw
  · cases hw
    exact wf_poke m a _ h (by omega)

/-- Bytes placed from outside keep the canonical form. -/
theorem wf_placeBytes (m : Memory) (a : Nat) (bs : List Byte) (h : m.wf = true) :
    (m.placeBytes a bs).wf = true := by
  induction bs generalizing m a with
  | nil => exact h
  | cons b bs ih =>
    refine ih _ _ ?_
    split
    · exact h
    · exact wf_poke m a b h (by omega)

/-- Bytes placed from `a` up leave every lower address alone. -/
theorem peek_placeBytes_below (m : Memory) (a b : Nat) (bs : List Byte) (hb : b < a) :
    (m.placeBytes a bs).peek b = m.peek b := by
  induction bs generalizing m a with
  | nil => rfl
  | cons c bs ih =>
    rw [Memory.placeBytes, ih _ _ (by omega)]
    split
    · rfl
    · exact peek_poke_other m a b c (by omega)

end Sys2Proof.Machine
end

