-- ==== Sys2Proof/Laws/State.lean ====
section
/-! SUPPORT. One lemma per field per update of the state, true by rfl. -/

namespace Sys2Proof.Machine

section
variable (s : State) (r : RegIx) (v : Nat) (b : Byte) (m : Memory) (st : Status) (k : ErrorKind)

@[simp] theorem writeReg_regs :
    (s.writeReg r v).regs = s.regs.set r.val (BitVec.ofNat 8 v) := rfl
@[simp] theorem writeReg_pc : (s.writeReg r v).pc = s.pc := rfl
@[simp] theorem writeReg_fl : (s.writeReg r v).fl = s.fl := rfl
@[simp] theorem writeReg_mem : (s.writeReg r v).mem = s.mem := rfl
@[simp] theorem writeReg_status : (s.writeReg r v).status = s.status := rfl
@[simp] theorem writeReg_fault : (s.writeReg r v).fault = s.fault := rfl
@[simp] theorem writeReg_out : (s.writeReg r v).out = s.out := rfl
@[simp] theorem writeReg_config : (s.writeReg r v).config = s.config := rfl

@[simp] theorem setPc_regs : (s.setPc b).regs = s.regs := rfl
@[simp] theorem setPc_pc : (s.setPc b).pc = b := rfl
@[simp] theorem setPc_fl : (s.setPc b).fl = s.fl := rfl
@[simp] theorem setPc_mem : (s.setPc b).mem = s.mem := rfl
@[simp] theorem setPc_status : (s.setPc b).status = s.status := rfl
@[simp] theorem setPc_fault : (s.setPc b).fault = s.fault := rfl
@[simp] theorem setPc_out : (s.setPc b).out = s.out := rfl
@[simp] theorem setPc_config : (s.setPc b).config = s.config := rfl

@[simp] theorem setMem_regs : (s.setMem m).regs = s.regs := rfl
@[simp] theorem setMem_pc : (s.setMem m).pc = s.pc := rfl
@[simp] theorem setMem_fl : (s.setMem m).fl = s.fl := rfl
@[simp] theorem setMem_mem : (s.setMem m).mem = m := rfl
@[simp] theorem setMem_status : (s.setMem m).status = s.status := rfl
@[simp] theorem setMem_fault : (s.setMem m).fault = s.fault := rfl
@[simp] theorem setMem_out : (s.setMem m).out = s.out := rfl
@[simp] theorem setMem_config : (s.setMem m).config = s.config := rfl

@[simp] theorem setStatus_regs : (s.setStatus st).regs = s.regs := rfl
@[simp] theorem setStatus_pc : (s.setStatus st).pc = s.pc := rfl
@[simp] theorem setStatus_fl : (s.setStatus st).fl = s.fl := rfl
@[simp] theorem setStatus_mem : (s.setStatus st).mem = s.mem := rfl
@[simp] theorem setStatus_status : (s.setStatus st).status = st := rfl
@[simp] theorem setStatus_fault : (s.setStatus st).fault = s.fault := rfl
@[simp] theorem setStatus_out : (s.setStatus st).out = s.out := rfl
@[simp] theorem setStatus_config : (s.setStatus st).config = s.config := rfl

@[simp] theorem emit_regs : (s.emit b).regs = s.regs := rfl
@[simp] theorem emit_pc : (s.emit b).pc = s.pc := rfl
@[simp] theorem emit_fl : (s.emit b).fl = s.fl := rfl
@[simp] theorem emit_mem : (s.emit b).mem = s.mem := rfl
@[simp] theorem emit_status : (s.emit b).status = s.status := rfl
@[simp] theorem emit_fault : (s.emit b).fault = s.fault := rfl
@[simp] theorem emit_out : (s.emit b).out = s.out ++ [b] := rfl
@[simp] theorem emit_config : (s.emit b).config = s.config := rfl

@[simp] theorem raise_regs : (raise k s).regs = s.regs := rfl
@[simp] theorem raise_pc : (raise k s).pc = s.pc := rfl
@[simp] theorem raise_fl : (raise k s).fl = s.fl := rfl
@[simp] theorem raise_mem : (raise k s).mem = s.mem := rfl
@[simp] theorem raise_status : (raise k s).status = .faulted := rfl
@[simp] theorem raise_fault :
    (raise k s).fault = some ⟨k, s.pc, s.byteAt s.pc.toNat⟩ := rfl
@[simp] theorem raise_out : (raise k s).out = s.out := rfl
@[simp] theorem raise_config : (raise k s).config = s.config := rfl

end

/-- Reading a register after a register write (R9, R11), the register named by a number. -/
theorem reg_writeReg (s : State) (i j : RegIx) (v : Nat) :
    (s.writeReg i v).reg j = if i = j then BitVec.ofNat 8 v else s.reg j := by
  simp only [State.reg, writeReg_regs, Fin.getElem_fin, Vector.getElem_set]
  simp [Fin.ext_iff]

@[simp] theorem reg_setPc (s : State) (b : Byte) (i : RegIx) : (s.setPc b).reg i = s.reg i := rfl
@[simp] theorem reg_setMem (s : State) (m : Memory) (i : RegIx) : (s.setMem m).reg i = s.reg i := rfl
@[simp] theorem reg_setStatus (s : State) (st : Status) (i : RegIx) :
    (s.setStatus st).reg i = s.reg i := rfl
@[simp] theorem reg_emit (s : State) (b : Byte) (i : RegIx) : (s.emit b).reg i = s.reg i := rfl
@[simp] theorem reg_raise (k : ErrorKind) (s : State) (i : RegIx) :
    (raise k s).reg i = s.reg i := rfl

/-- The stack pointer after a register write is `x[7]` of the new register file (R10). -/
theorem sp_writeReg (s : State) (i : RegIx) (v : Nat) :
    (s.writeReg i v).sp = if i = spIx then BitVec.ofNat 8 v else s.sp :=
  reg_writeReg s i spIx v

end Sys2Proof.Machine
end

