-- ==== Sys2Proof/Laws/Ops.lean ====
section
/-! SUPPORT. For each shared operation, what it answers on each of its cases, and all it can do when it
answers a state. -/

namespace Sys2Proof.Machine

@[simp] theorem except_bind_ok {ε α β : Type} (a : α) (f : α → Except ε β) :
    (Except.ok a >>= f) = f a := rfl

@[simp] theorem except_bind_error {ε α β : Type} (e : ε) (f : α → Except ε β) :
    ((Except.error e : Except ε α) >>= f) = .error e := rfl

@[simp] theorem except_pure {ε α : Type} (a : α) : (pure a : Except ε α) = .ok a := rfl

/-- A sequence that succeeds has a first part that succeeds. -/
theorem bind_eq_ok {ε α β : Type} {x : Except ε α} {f : α → Except ε β} {b : β}
    (h : (x >>= f) = .ok b) : ∃ a, x = .ok a ∧ f a = .ok b := by
  cases x with
  | ok a => exact ⟨a, rfl, h⟩
  | error e => cases h

theorem complete_ok (s t : State) : complete s (.ok t) = .next t := rfl
theorem complete_error (s : State) (k : ErrorKind) : complete s (.error k) = .next (raise k s) := rfl

/-- All a cycle can end in (R53): the handler's state whole, or the error taken from the first state. -/
theorem complete_cases (s t : State) (r : Except ErrorKind State) (h : complete s r = .next t) :
    r = .ok t ∨ ∃ k, r = .error k ∧ t = raise k s := by
  cases r with
  | ok u => cases h; exact .inl rfl
  | error k => cases h; exact .inr ⟨k, rfl, rfl⟩

/-- `CheckReg` of a byte below 8 (R12). -/
theorem checkReg_ok (b : Byte) (r : RegIx) (h : r.val = b.toNat) : checkReg b = .ok r := by
  simp [checkReg, ← h]

/-- `CheckReg` of a byte above 7 (R12). -/
theorem checkReg_error (b : Byte) (h : 7 < b.toNat) : checkReg b = .error .invalidRegister := by
  simp [checkReg, Nat.not_lt.mpr h]

/-- All `CheckReg` can do. -/
theorem checkReg_cases (b : Byte) :
    (∃ r : RegIx, r.val = b.toNat ∧ checkReg b = .ok r) ∨
      7 < b.toNat ∧ checkReg b = .error .invalidRegister := by
  by_cases h : b.toNat < 8
  · exact .inl ⟨⟨b.toNat, h⟩, rfl, checkReg_ok b _ rfl⟩
  · exact .inr ⟨by omega, checkReg_error b (by omega)⟩

/-- The advance in range (R50). -/
theorem autoAdvance_ok (n : Nat) (s : State) (h : s.pc.toNat + 1 + n ≤ 255) :
    autoAdvance n s = .ok (s.setPc (BitVec.ofNat 8 (s.pc.toNat + 1 + n))) := by
  simp [autoAdvance, Nat.not_lt.mpr h]

/-- The advance past 255 (R51). -/
theorem autoAdvance_error (n : Nat) (s : State) (h : 255 < s.pc.toNat + 1 + n) :
    autoAdvance n s = .error .outOfBounds := by
  simp [autoAdvance, h]

/-- All the advance can do. -/
theorem autoAdvance_cases (n : Nat) (s : State) :
    (s.pc.toNat + 1 + n ≤ 255 ∧
        autoAdvance n s = .ok (s.setPc (BitVec.ofNat 8 (s.pc.toNat + 1 + n)))) ∨
      255 < s.pc.toNat + 1 + n ∧ autoAdvance n s = .error .outOfBounds := by
  by_cases h : s.pc.toNat + 1 + n ≤ 255
  · exact .inl ⟨h, autoAdvance_ok n s h⟩
  · exact .inr ⟨by omega, autoAdvance_error n s (by omega)⟩

/-- The first half of a push, above 0 (R65). -/
theorem decrementSp_ok (s : State) (h : 1 ≤ s.sp.toNat) :
    decrementSp s = .ok (s.writeReg spIx (s.sp.toNat - 1)) := by
  have h0 : s.sp.toNat ≠ 0 := by omega
  simp only [decrementSp, pushAddress, h0, if_false]
  rfl

/-- The first half of a push, at 0 (R78). -/
theorem decrementSp_error (s : State) (h : s.sp.toNat = 0) :
    decrementSp s = .error .stackOverflow := by
  simp only [decrementSp, pushAddress, h, if_true]
  rfl

/-- The first half of a pop, inside the stack region (R66). -/
theorem loadTop_ok (s : State) (h : s.sp.toNat < s.config.stackTop.toNat) :
    loadTop s = .ok (s.byteAt s.sp.toNat) := by
  have hsp := s.sp.isLt
  have h1 : ¬ s.sp.toNat ≥ s.config.stackTop.toNat := by omega
  simp only [loadTop, popAddress, h1, if_false]
  exact memRead_ok s.mem s.sp.toNat (by omega)

/-- The first half of a pop at or above `STACK_TOP` (R79). -/
theorem loadTop_error (s : State) (h : s.config.stackTop.toNat ≤ s.sp.toNat) :
    loadTop s = .error .stackUnderflow := by
  simp only [loadTop, popAddress, ge_iff_le, h, if_true]
  rfl

/-- A store inside memory (R26). -/
theorem store_ok (s : State) (a v : Nat) (h : a ≤ 255) :
    s.store a v = .ok (s.setMem (s.mem.poke a (BitVec.ofNat 8 v))) := by
  simp only [State.store, memWrite_ok s.mem a v h]
  rfl

/-- The ALU block on ADD (R63). -/
theorem aluBlock_add (a b : RegIx) (s : State) :
    aluBlock .add a b s = .ok (s.writeReg a ((s.reg a).toNat + (s.reg b).toNat)) := rfl

/-- The ALU block on MUL (R62). -/
theorem aluBlock_mul (a b : RegIx) (s : State) :
    aluBlock .mul a b s = .ok (s.writeReg a ((s.reg a).toNat * (s.reg b).toNat)) := rfl

/-- The eager fetch in range (R47). -/
theorem fetch_ok (s : State) (h : s.pc.toNat ≤ 253) :
    fetch s = .ok (s.byteAt s.pc.toNat, s.byteAt (s.pc.toNat + 1), s.byteAt (s.pc.toNat + 2)) := by
  simp only [fetch, memRead_ok s.mem _ (by omega : s.pc.toNat ≤ 255),
    memRead_ok s.mem _ (by omega : s.pc.toNat + 1 ≤ 255),
    memRead_ok s.mem _ (by omega : s.pc.toNat + 2 ≤ 255)]
  rfl

/-- The eager fetch at 254 and 255 (R47). -/
theorem fetch_error (s : State) (h : 254 ≤ s.pc.toNat) : fetch s = .error .outOfBounds := by
  have hp := s.pc.isLt
  simp only [fetch, memRead_ok s.mem _ (by omega : s.pc.toNat ≤ 255), except_bind_ok]
  by_cases h1 : s.pc.toNat + 1 ≤ 255
  · simp only [memRead_ok s.mem _ h1, memRead_error s.mem _ (by omega : 255 < s.pc.toNat + 2),
      except_bind_ok, except_bind_error]
  · simp only [memRead_error s.mem _ (by omega : 255 < s.pc.toNat + 1), except_bind_error]

/-- What a step of a running machine fetches and decodes, in range. -/
theorem fetchDecode_inRange (s : State) (h : s.pc.toNat ≤ 253) :
    fetchDecode s =
      match decodeFetched (s.byteAt s.pc.toNat) (s.byteAt (s.pc.toNat + 1))
          (s.byteAt (s.pc.toNat + 2)) with
      | some i => .ok i
      | none => .error .invalidOpcode := by
  simp only [fetchDecode, fetch_ok s h, except_bind_ok]
  rfl

/-- The fetch error reaches the cycle. -/
theorem fetchDecode_outOfRange (s : State) (h : 254 ≤ s.pc.toNat) :
    fetchDecode s = .error .outOfBounds := by
  simp only [fetchDecode, fetch_error s h, except_bind_error]

/-- A step of a running machine. -/
theorem step_running (s : State) (h : s.status = .running) :
    step s =
      match fetchDecode s with
      | .ok i => exec i s
      | .error k => .next (raise k s) := by
  unfold step
  rw [h]
  rfl

/-- A step of a machine that is not running (R18). -/
theorem step_stopped (s : State) (h : s.status ≠ .running) : step s = .next s := by
  unfold step
  split
  · exact absurd ‹_› h
  · rfl
  · rfl

/-- Every cycle ends in a next state: exec never stops the model. -/
theorem complete_next (s : State) (r : Except ErrorKind State) : ∃ t, complete s r = .next t := by
  cases r with
  | ok t => exact ⟨t, rfl⟩
  | error k => exact ⟨raise k s, rfl⟩

/-- A stopped machine is not changed by driving it on. -/
theorem runCycles_stopped (n : Nat) (s : State) (h : s.status ≠ .running) : runCycles n s = s := by
  cases n with
  | zero => rfl
  | succ n =>
    unfold runCycles
    split
    · exact absurd ‹_› h
    · rfl
    · rfl

/-- Loading an image keeps memory in canonical form. -/
theorem loadImage_wf (image : List Byte) (s : State) (h : s.mem.wf = true) :
    (loadImage image s).mem.wf = true :=
  wf_placeBytes s.mem 0 image h

/-- Storing an opcode-table word for the next fetch keeps memory in canonical form. -/
theorem withFetchWord_wf (s : State) (nbits w : Nat) (h : s.mem.wf = true) :
    (s.withFetchWord nbits w).mem.wf = true :=
  wf_placeBytes s.mem s.pc.toNat (tableBytes nbits w) h

end Sys2Proof.Machine
end

