-- ==== Sys2Proof/Laws/Exec.lean ====
section
/-! SUPPORT. One lemma per meaning that says all it can do: the errors it takes, each with the condition
on the operands and the state, and the state it commits otherwise. Provers cite these and do not unfold
a meaning. -/

namespace Sys2Proof.Machine

/-- The stack pointer after the first half of a push. -/
theorem sp_decremented (s : State) (h : 1 ≤ s.sp.toNat) :
    (s.writeReg spIx (s.sp.toNat - 1)).sp.toNat = s.sp.toNat - 1 := by
  have hsp := s.sp.isLt
  rw [sp_writeReg, if_pos rfl, BitVec.toNat_ofNat]
  omega

/-- All HALT can do (R56). -/
theorem execHalt_spec (s : State) :
    (s.pc.toNat + 1 ≤ 255 ∧
        execHalt s = .next ((s.setPc (BitVec.ofNat 8 (s.pc.toNat + 1))).setStatus .halted)) ∨
      (255 < s.pc.toNat + 1 ∧ execHalt s = .next (raise .outOfBounds s)) := by
  rcases autoAdvance_cases 0 s with ⟨h, e⟩ | ⟨h, e⟩
  · exact .inl ⟨h, by simp only [execHalt, e]; rfl⟩
  · exact .inr ⟨h, by simp only [execHalt, e]; rfl⟩

/-- All LOAD_IMMEDIATE can do (R57). -/
theorem execLoadImmediate_spec (reg value : Byte) (s : State) :
    (∃ r : RegIx, r.val = reg.toNat ∧ s.pc.toNat + 3 ≤ 255 ∧
        execLoadImmediate reg value s =
          .next ((s.writeReg r value.toNat).setPc (BitVec.ofNat 8 (s.pc.toNat + 3)))) ∨
      (7 < reg.toNat ∧ execLoadImmediate reg value s = .next (raise .invalidRegister s)) ∨
      (reg.toNat ≤ 7 ∧ 255 < s.pc.toNat + 3 ∧
        execLoadImmediate reg value s = .next (raise .outOfBounds s)) := by
  unfold execLoadImmediate
  rcases checkReg_cases reg with ⟨r, hr, e⟩ | ⟨h, e⟩
  · rw [e]
    rcases autoAdvance_cases 2 (s.writeReg r value.toNat) with ⟨h, e⟩ | ⟨h, e⟩
    · exact .inl ⟨r, hr, h, by simp only [except_bind_ok, immediate, e]; rfl⟩
    · exact .inr (.inr ⟨by omega, h, by simp only [except_bind_ok, immediate, e]; rfl⟩)
  · exact .inr (.inl ⟨h, by rw [e]; rfl⟩)

/-- All PRINT_REGISTER can do (R58). -/
theorem execPrintRegister_spec (reg : Byte) (s : State) :
    (∃ r : RegIx, r.val = reg.toNat ∧ s.pc.toNat + 2 ≤ 255 ∧
        execPrintRegister reg s =
          .next ((s.emit (s.reg r)).setPc (BitVec.ofNat 8 (s.pc.toNat + 2)))) ∨
      (7 < reg.toNat ∧ execPrintRegister reg s = .next (raise .invalidRegister s)) ∨
      (reg.toNat ≤ 7 ∧ 255 < s.pc.toNat + 2 ∧
        execPrintRegister reg s = .next (raise .outOfBounds s)) := by
  unfold execPrintRegister
  rcases checkReg_cases reg with ⟨r, hr, e⟩ | ⟨h, e⟩
  · rw [e]
    rcases autoAdvance_cases 1 (s.emit (s.reg r)) with ⟨h, e⟩ | ⟨h, e⟩
    · exact .inl ⟨r, hr, h, by simp only [except_bind_ok, e]; rfl⟩
    · exact .inr (.inr ⟨by omega, h, by simp only [except_bind_ok, e]; rfl⟩)
  · exact .inr (.inl ⟨h, by rw [e]; rfl⟩)

/-- All MUL can do (R62). -/
theorem execMul_spec (regA regB : Byte) (s : State) :
    (∃ a b : RegIx, a.val = regA.toNat ∧ b.val = regB.toNat ∧ s.pc.toNat + 3 ≤ 255 ∧
        execMul regA regB s =
          .next ((s.writeReg a ((s.reg a).toNat * (s.reg b).toNat)).setPc
            (BitVec.ofNat 8 (s.pc.toNat + 3)))) ∨
      ((7 < regA.toNat ∨ 7 < regB.toNat) ∧
        execMul regA regB s = .next (raise .invalidRegister s)) ∨
      (regA.toNat ≤ 7 ∧ regB.toNat ≤ 7 ∧ 255 < s.pc.toNat + 3 ∧
        execMul regA regB s = .next (raise .outOfBounds s)) := by
  unfold execMul
  rcases checkReg_cases regA with ⟨a, ha, e⟩ | ⟨h, e⟩
  · rw [e]
    rcases checkReg_cases regB with ⟨b, hb, e⟩ | ⟨h, e⟩
    · rw [e]
      rcases autoAdvance_cases 2 (s.writeReg a ((s.reg a).toNat * (s.reg b).toNat)) with
        ⟨h, e⟩ | ⟨h, e⟩
      · exact .inl ⟨a, b, ha, hb, h, by simp only [except_bind_ok, aluBlock_mul, e]; rfl⟩
      · exact .inr (.inr ⟨by omega, by omega, h, by
          simp only [except_bind_ok, aluBlock_mul, e]; rfl⟩)
    · exact .inr (.inl ⟨.inr h, by rw [e]; rfl⟩)
  · exact .inr (.inl ⟨.inl h, by rw [e]; rfl⟩)

/-- All ADD can do (R63). -/
theorem execAdd_spec (regA regB : Byte) (s : State) :
    (∃ a b : RegIx, a.val = regA.toNat ∧ b.val = regB.toNat ∧ s.pc.toNat + 3 ≤ 255 ∧
        execAdd regA regB s =
          .next ((s.writeReg a ((s.reg a).toNat + (s.reg b).toNat)).setPc
            (BitVec.ofNat 8 (s.pc.toNat + 3)))) ∨
      ((7 < regA.toNat ∨ 7 < regB.toNat) ∧
        execAdd regA regB s = .next (raise .invalidRegister s)) ∨
      (regA.toNat ≤ 7 ∧ regB.toNat ≤ 7 ∧ 255 < s.pc.toNat + 3 ∧
        execAdd regA regB s = .next (raise .outOfBounds s)) := by
  unfold execAdd
  rcases checkReg_cases regA with ⟨a, ha, e⟩ | ⟨h, e⟩
  · rw [e]
    rcases checkReg_cases regB with ⟨b, hb, e⟩ | ⟨h, e⟩
    · rw [e]
      rcases autoAdvance_cases 2 (s.writeReg a ((s.reg a).toNat + (s.reg b).toNat)) with
        ⟨h, e⟩ | ⟨h, e⟩
      · exact .inl ⟨a, b, ha, hb, h, by simp only [except_bind_ok, aluBlock_add, e]; rfl⟩
      · exact .inr (.inr ⟨by omega, by omega, h, by
          simp only [except_bind_ok, aluBlock_add, e]; rfl⟩)
    · exact .inr (.inl ⟨.inr h, by rw [e]; rfl⟩)
  · exact .inr (.inl ⟨.inl h, by rw [e]; rfl⟩)

/-- All PUSH can do (R65). The register is read after the stack pointer has moved. -/
theorem execPush_spec (reg : Byte) (s : State) :
    (∃ r : RegIx, r.val = reg.toNat ∧ 1 ≤ s.sp.toNat ∧ s.pc.toNat + 2 ≤ 255 ∧
        execPush reg s =
          .next (((s.writeReg spIx (s.sp.toNat - 1)).setMem
            (s.mem.poke (s.sp.toNat - 1) ((s.writeReg spIx (s.sp.toNat - 1)).reg r))).setPc
            (BitVec.ofNat 8 (s.pc.toNat + 2)))) ∨
      (7 < reg.toNat ∧ execPush reg s = .next (raise .invalidRegister s)) ∨
      (reg.toNat ≤ 7 ∧ s.sp.toNat = 0 ∧ execPush reg s = .next (raise .stackOverflow s)) ∨
      (reg.toNat ≤ 7 ∧ 1 ≤ s.sp.toNat ∧ 255 < s.pc.toNat + 2 ∧
        execPush reg s = .next (raise .outOfBounds s)) := by
  unfold execPush
  have hsp := s.sp.isLt
  rcases checkReg_cases reg with ⟨r, hr, e⟩ | ⟨h, e⟩
  · rw [e]
    by_cases h0 : s.sp.toNat = 0
    · exact .inr (.inr (.inl ⟨by omega, h0, by
        simp only [except_bind_ok, decrementSp_error s h0]; rfl⟩))
    · have h1 : 1 ≤ s.sp.toNat := by omega
      simp only [except_bind_ok, decrementSp_ok s h1, sp_decremented s h1,
        store_ok _ (s.sp.toNat - 1) _ (by omega), BitVec.ofNat_toNat, BitVec.setWidth_eq,
        writeReg_mem]
      rcases autoAdvance_cases 1 ((s.writeReg spIx (s.sp.toNat - 1)).setMem
          (s.mem.poke (s.sp.toNat - 1) ((s.writeReg spIx (s.sp.toNat - 1)).reg r))) with
        ⟨h, e⟩ | ⟨h, e⟩
      · exact .inl ⟨r, hr, h1, h, by rw [e]; rfl⟩
      · exact .inr (.inr (.inr ⟨by omega, h1, h, by rw [e]; rfl⟩))
  · exact .inr (.inl ⟨h, by rw [e]; rfl⟩)

/-- All POP can do (R66). The stack pointer is read after the load. -/
theorem execPop_spec (reg : Byte) (s : State) :
    (∃ r : RegIx, r.val = reg.toNat ∧ s.sp.toNat < s.config.stackTop.toNat ∧
        s.pc.toNat + 2 ≤ 255 ∧
        execPop reg s =
          .next ((s.writeReg r (s.byteAt s.sp.toNat).toNat).incrementSp.setPc
            (BitVec.ofNat 8 (s.pc.toNat + 2)))) ∨
      (7 < reg.toNat ∧ execPop reg s = .next (raise .invalidRegister s)) ∨
      (reg.toNat ≤ 7 ∧ s.config.stackTop.toNat ≤ s.sp.toNat ∧
        execPop reg s = .next (raise .stackUnderflow s)) ∨
      (reg.toNat ≤ 7 ∧ s.sp.toNat < s.config.stackTop.toNat ∧ 255 < s.pc.toNat + 2 ∧
        execPop reg s = .next (raise .outOfBounds s)) := by
  unfold execPop
  rcases checkReg_cases reg with ⟨r, hr, e⟩ | ⟨h, e⟩
  · rw [e]
    by_cases h0 : s.sp.toNat < s.config.stackTop.toNat
    · simp only [except_bind_ok, loadTop_ok s h0]
      rcases autoAdvance_cases 1 (s.writeReg r (s.byteAt s.sp.toNat).toNat).incrementSp with
        ⟨h, e⟩ | ⟨h, e⟩
      · exact .inl ⟨r, hr, h0, h, by rw [e]; rfl⟩
      · exact .inr (.inr (.inr ⟨by omega, h0, h, by rw [e]; rfl⟩))
    · exact .inr (.inr (.inl ⟨by omega, by omega, by
        simp only [except_bind_ok, loadTop_error s (by omega)]; rfl⟩))
  · exact .inr (.inl ⟨h, by rw [e]; rfl⟩)

/-- All CALL can do (R68). The target is read after the push. -/
theorem execCall_spec (reg : Byte) (s : State) :
    (∃ r : RegIx, r.val = reg.toNat ∧ 1 ≤ s.sp.toNat ∧
        execCall reg s =
          .next (((s.writeReg spIx (s.sp.toNat - 1)).setMem
            (s.mem.poke (s.sp.toNat - 1) (BitVec.ofNat 8 (s.pc.toNat + 2)))).setPc
            ((s.writeReg spIx (s.sp.toNat - 1)).reg r))) ∨
      (7 < reg.toNat ∧ execCall reg s = .next (raise .invalidRegister s)) ∨
      (reg.toNat ≤ 7 ∧ s.sp.toNat = 0 ∧ execCall reg s = .next (raise .stackOverflow s)) := by
  unfold execCall
  have hsp := s.sp.isLt
  rcases checkReg_cases reg with ⟨r, hr, e⟩ | ⟨h, e⟩
  · rw [e]
    by_cases h0 : s.sp.toNat = 0
    · exact .inr (.inr ⟨by omega, h0, by
        simp only [except_bind_ok, decrementSp_error s h0]; rfl⟩)
    · have h1 : 1 ≤ s.sp.toNat := by omega
      refine .inl ⟨r, hr, h1, ?_⟩
      simp only [except_bind_ok, decrementSp_ok s h1, sp_decremented s h1,
        store_ok _ (s.sp.toNat - 1) _ (by omega)]
      rfl
  · exact .inr (.inl ⟨h, by rw [e]; rfl⟩)

/-- All RETURN can do (R69). -/
theorem execRet_spec (s : State) :
    (s.sp.toNat < s.config.stackTop.toNat ∧
        execRet s = .next (s.setPc (s.byteAt s.sp.toNat)).incrementSp) ∨
      (s.config.stackTop.toNat ≤ s.sp.toNat ∧ execRet s = .next (raise .stackUnderflow s)) := by
  unfold execRet
  by_cases h : s.sp.toNat < s.config.stackTop.toNat
  · exact .inl ⟨h, by simp only [loadTop_ok s h]; rfl⟩
  · exact .inr ⟨by omega, by simp only [loadTop_error s (by omega)]; rfl⟩

/-- All a step can do: a machine that is not running stays (R18), the fetch fails at the top of memory
(R47), the opcode byte is invalid (R48), or the instruction at PC is executed (R49). -/
theorem step_spec (s : State) :
    (s.status ≠ .running ∧ step s = .next s) ∨
    (s.status = .running ∧ 254 ≤ s.pc.toNat ∧ step s = .next (raise .outOfBounds s)) ∨
    (s.status = .running ∧ s.pc.toNat ≤ 253 ∧ decoder (s.byteAt s.pc.toNat) = none ∧
      step s = .next (raise .invalidOpcode s)) ∨
    (∃ d, s.status = .running ∧ s.pc.toNat ≤ 253 ∧ decoder (s.byteAt s.pc.toNat) = some d ∧
      step s = exec (assemble d.tag (s.byteAt (s.pc.toNat + 1)) (s.byteAt (s.pc.toNat + 2))) s) := by
  by_cases hr : s.status = .running
  · refine .inr ?_
    by_cases hp : s.pc.toNat ≤ 253
    · refine .inr ?_
      rw [step_running s hr, fetchDecode_inRange s hp]
      cases hd : decoder (s.byteAt s.pc.toNat) with
      | none => exact .inl ⟨hr, hp, rfl, by rw [decodeFetched_of_invalid _ _ _ hd]⟩
      | some d => exact .inr ⟨d, hr, hp, rfl, by rw [decodeFetched_of_decoder _ _ _ d hd]⟩
    · exact .inl ⟨hr, by omega, by rw [step_running s hr, fetchDecode_outOfRange s (by omega)]⟩
  · exact .inl ⟨hr, step_stopped s hr⟩

end Sys2Proof.Machine
end

