-- ==== Sys2Proof/Laws/PerInstr.lean ====
section
/-! SUPPORT. The per-instruction family `EncodedLength` (R34, R36): an instruction's encoding is not
empty and is one byte longer than the number in bits 7:6 of its first byte. -/

namespace Sys2Proof.Laws.EncodedLength

/-- The length of an instruction is known from its opcode byte alone. -/
def Statement (i : Instr) : Prop :=
  ∃ ir operands, encode i = ir :: operands ∧ operands.length = (ir >>> 6).toNat

theorem halt : Statement .halt := ⟨_, _, rfl, by decide⟩
theorem loadImmediate (reg value : Byte) : Statement (.loadImmediate reg value) := ⟨_, _, rfl, by simp⟩
theorem printRegister (reg : Byte) : Statement (.printRegister reg) := ⟨_, _, rfl, by simp⟩
theorem mul (regA regB : Byte) : Statement (.mul regA regB) := ⟨_, _, rfl, by simp⟩
theorem add (regA regB : Byte) : Statement (.add regA regB) := ⟨_, _, rfl, by simp⟩
theorem push (reg : Byte) : Statement (.push reg) := ⟨_, _, rfl, by simp⟩
theorem pop (reg : Byte) : Statement (.pop reg) := ⟨_, _, rfl, by simp⟩
theorem call (reg : Byte) : Statement (.call reg) := ⟨_, _, rfl, by simp⟩
theorem ret : Statement .ret := ⟨_, _, rfl, by decide⟩

end Sys2Proof.Laws.EncodedLength
end

