-- ==== Sys2Proof/Laws/Run.lean ====
section
/-! SUPPORT. Driving the machine: one cycle of the host's `Core.run` and of the session's runner. -/

namespace Sys2Proof.Machine

/-- One step of a run of any machine behind the host's interface. -/
theorem core_run_next (M : Host.Core) (n : Nat) (s t : M.State) (h : M.step s = .next t) :
    M.run (n + 1) s = M.run n t := by
  simp only [Host.Core.run, h]

/-- One step of a run of this machine. -/
theorem run_next (n : Nat) (s t : State) (h : step s = .next t) :
    Host.Core.run Sys2Proof.core (n + 1) s = Host.Core.run Sys2Proof.core n t :=
  core_run_next Sys2Proof.core n s t h

/-- One cycle of the session's runner. -/
theorem runCycles_next (n : Nat) (s t : State) (hr : s.status = .running) (h : step s = .next t) :
    runCycles (n + 1) s = runCycles n t := by
  simp only [runCycles, hr, h]

end Sys2Proof.Machine
end

