-- ==== Sys2Proof/Tests/Slice0.lean ====
section
/-! SUPPORT. Tests. Expected results are the examples and vectors of spec/95_test_vectors.md (their L and V
numbers are cited) or hand calculation from the rules cited; and, for every statement that has
hypotheses, a witness that meets them, at the boundaries of its clauses. -/

namespace Sys2Proof.Tests

open Sys2Proof Sys2Proof.Machine

/-- The vectors' start state: `STACK_TOP = 244`, the bytes given placed at PC. -/
def machineAt (pc : Nat) (bytes : List Byte) : State :=
  { State.construct ⟨244#8⟩ with pc := BitVec.ofNat 8 pc, mem := Memory.placeBytes [] pc bytes }

/-- A field of the next state. -/
def after {α : Type} (o : Host.Outcome State Fault Refusal) (f : State → α) : Option α :=
  match o with
  | .next s => some (f s)
  | .fault _ => none
  | .refused _ => none

/-! ### Well-formedness: an ill-formed term for each operand check -/

theorem test_wf_accepts_seven : (Instr.mul 7#8 0#8).wellFormed = true := by decide
theorem test_wf_value_is_unchecked : (Instr.loadImmediate 0#8 255#8).wellFormed = true := by decide
theorem test_wf_refuses_load : (Instr.loadImmediate 8#8 0#8).wellFormed = false := by decide
theorem test_wf_refuses_print : (Instr.printRegister 255#8).wellFormed = false := by decide
theorem test_wf_refuses_mul_first : (Instr.mul 8#8 0#8).wellFormed = false := by decide
theorem test_wf_refuses_mul_second : (Instr.mul 0#8 8#8).wellFormed = false := by decide
theorem test_wf_refuses_add_first : (Instr.add 9#8 0#8).wellFormed = false := by decide
theorem test_wf_refuses_add_second : (Instr.add 0#8 9#8).wellFormed = false := by decide
theorem test_wf_refuses_push : (Instr.push 8#8).wellFormed = false := by decide
theorem test_wf_refuses_pop : (Instr.pop 8#8).wellFormed = false := by decide
theorem test_wf_refuses_call : (Instr.call 8#8).wellFormed = false := by decide

/-! ### Decoding: a word of every constructor written out from R35 and R37 (V1) -/

theorem test_decode_halt : decodeTableWord 8 0b00000001 = some .halt := by decide
theorem test_decode_loadImmediate :
    decodeTableWord 24 0b00001000_00000011_10000010 = some (.loadImmediate 3#8 8#8) := by decide
theorem test_decode_printRegister :
    decodeTableWord 16 0b00000101_01000111 = some (.printRegister 5#8) := by decide
theorem test_decode_mul :
    decodeTableWord 24 0b00000001_00000010_10100010 = some (.mul 2#8 1#8) := by decide
theorem test_decode_add :
    decodeTableWord 24 0b00000110_00000111_10100000 = some (.add 7#8 6#8) := by decide
theorem test_decode_push : decodeTableWord 16 0b00000100_01000101 = some (.push 4#8) := by decide
theorem test_decode_pop : decodeTableWord 16 0b10000000_01000110 = some (.pop 128#8) := by decide
theorem test_decode_call : decodeTableWord 16 0b00000010_01010000 = some (.call 2#8) := by decide
theorem test_decode_ret : decodeTableWord 8 0b00010001 = some .ret := by decide
/-- V2 to V6. -/
theorem test_decode_refuses_neighbours :
    ([0x00#8, 0xFF#8, 0xA1#8, 0x10#8, 0x02#8, 0x03#8, 0x81#8, 0x83#8].map decoder).all
      (· == none) = true := by decide
/-- V8: exactly nine bytes decode. -/
theorem test_decode_exactly_nine :
    ((List.range 256).filter (fun n => (decoder (BitVec.ofNat 8 n)).isSome)).length = 9 := by decide
theorem test_decode_truncated : decode [0x82#8, 0x00#8] = .error .truncated := by decide

/-! ### One step of each instruction -/

/-- V10: HALT at 253. -/
theorem test_halt :
    after (step (machineAt 253 [0x01#8])) (fun t => (t.pc, t.status)) = some (254#8, .halted) := by
  decide
/-- V12: the stack pointer loaded, no check. -/
theorem test_load_sp :
    after (step (machineAt 0 [0x82#8, 7#8, 1#8])) (fun t => (t.reg 7, t.pc)) = some (1#8, 3#8) := by
  decide
/-- V65: LOAD_IMMEDIATE at 253 commits nothing. -/
theorem test_load_at_253 :
    after (step (machineAt 253 [0x82#8, 0#8, 9#8])) (fun t => (t.reg 0, t.pc, t.fault)) =
      some (0#8, 253#8, some ⟨.outOfBounds, 253#8, 0x82#8⟩) := by decide
/-- V16: the third byte is fetched and discarded. -/
theorem test_print :
    after (step ((machineAt 0 [0x47#8, 0#8, 0xFF#8]).writeReg 0 72)) (fun t => (t.out, t.pc)) =
      some ([72#8], 2#8) := by decide
/-- V22: 255 * 255. -/
theorem test_mul_wraps :
    after (step (((machineAt 0 [0xA2#8, 0#8, 1#8]).writeReg 0 255).writeReg 1 255)) (·.reg 0) =
      some 1#8 := by decide
/-- V26: the second operand bad. -/
theorem test_mul_bad_second :
    after (step ((machineAt 0 [0xA2#8, 0#8, 8#8]).writeReg 0 3)) (fun t => (t.reg 0, t.fault)) =
      some (3#8, some ⟨.invalidRegister, 0#8, 0xA2#8⟩) := by decide
/-- V27: 200 + 100, the source unchanged. -/
theorem test_add_wraps :
    after (step (((machineAt 0 [0xA0#8, 0#8, 2#8]).writeReg 0 200).writeReg 2 100))
      (fun t => (t.reg 0, t.reg 2, t.pc)) = some (44#8, 100#8, 3#8) := by decide
/-- V29: one register twice. -/
theorem test_add_doubles :
    after (step ((machineAt 0 [0xA0#8, 1#8, 1#8]).writeReg 1 128)) (·.reg 1) = some 0#8 := by decide
/-- V38: PUSH R7 stores the decremented stack pointer. -/
theorem test_push_sp :
    after (step (machineAt 0 [0x45#8, 7#8])) (fun t => (t.reg 7, t.byteAt 243, t.pc)) =
      some (243#8, 243#8, 2#8) := by decide
/-- L9, V37: overflow leaves the stack pointer and memory alone. -/
theorem test_push_overflow :
    after (step (((machineAt 0 [0x45#8, 1#8]).writeReg 1 5).writeReg 7 0))
      (fun t => (t.reg 7, t.byteAt 255, t.byteAt 0, t.fault)) =
      some (0#8, 0#8, 0x45#8, some ⟨.stackOverflow, 0#8, 0x45#8⟩) := by decide
/-- V48: at SP 0 the POP opcode itself is popped. -/
theorem test_pop :
    after (step ((machineAt 0 [0x46#8, 2#8]).writeReg 7 0)) (fun t => (t.reg 2, t.reg 7, t.pc)) =
      some (70#8, 1#8, 2#8) := by decide
/-- V46: POP R7 of 255 wraps. -/
theorem test_pop_sp :
    after (step (((machineAt 0 [0x46#8, 7#8]).writeReg 7 243).setMem
      [(0, 0x46#8), (1, 7#8), (243, 255#8)])) (·.reg 7) = some 0#8 := by decide
/-- V50. -/
theorem test_call :
    after (step ((machineAt 6 [0x50#8, 1#8]).writeReg 1 11))
      (fun t => (t.pc, t.reg 7, t.byteAt 243)) = some (11#8, 243#8, 8#8) := by decide
/-- V52: CALL R7 goes to the decremented stack pointer. -/
theorem test_call_sp :
    after (step (machineAt 6 [0x50#8, 7#8])) (fun t => (t.pc, t.byteAt 243)) =
      some (243#8, 8#8) := by decide
/-- V57. -/
theorem test_ret :
    after (step (((machineAt 17 [0x11#8]).writeReg 7 243).setMem [(17, 0x11#8), (243, 8#8)]))
      (fun t => (t.pc, t.reg 7)) = some (8#8, 244#8) := by decide
/-- V58: RETURN on the empty stack. -/
theorem test_ret_underflow :
    after (step (machineAt 17 [0x11#8])) (fun t => (t.pc, t.fault)) =
      some (17#8, some ⟨.stackUnderflow, 17#8, 0x11#8⟩) := by decide

/-! ### The cycle and the host -/

/-- V64: the fetch error before the decode error. -/
theorem test_fetch_before_decode :
    after (step (machineAt 254 [0xFF#8])) (·.fault) = some (some ⟨.outOfBounds, 254#8, 0xFF#8⟩) := by
  decide
/-- V67: the handler's error before the advance's. -/
theorem test_handler_before_advance :
    after (step (machineAt 253 [0xA0#8, 8#8, 0#8])) (·.fault) =
      some (some ⟨.invalidRegister, 253#8, 0xA0#8⟩) := by decide
/-- V49: the register check before the stack check. -/
theorem test_register_before_stack :
    after (step (machineAt 0 [0x46#8, 8#8])) (·.fault) =
      some (some ⟨.invalidRegister, 0#8, 0x46#8⟩) := by decide
/-- V34. -/
theorem test_alu_other :
    aluResult (.other 2) 1#8 1#8 = .error .unsupportedOperation := by decide
/-- V71: with nothing loaded the first cycle meets an invalid opcode. -/
theorem test_empty_image :
    after (step State.reset) (·.fault) = some (some ⟨.invalidOpcode, 0#8, 0x00#8⟩) := by decide
/-- R20: the text of an output value. -/
theorem test_output_text : outputTexts ((machineAt 0 []).emit 72#8) = ["72"] := by decide
/-- V76: load, then inspect. -/
theorem test_load_image :
    ((Session.load [0x82#8, 0#8, 8#8] (Session.construct ⟨244#8⟩)).bind
      (Session.inspect (.cell 2#8))) = .ok 8#8 := by decide

/-! ### Witnesses: every statement's hypotheses are met, clause by clause -/

/-- The state a cycle that raises `k` leaves, as `FaultCommitsNothingElse` writes it. -/
def faultOf (k : ErrorKind) (s : State) : State := raise k s

theorem witness_LoadedImageIsMemory :
    (List.replicate 256 1#8).length ≤ 256 ∧ ([] : List Byte).length ≤ 256 := by
  rw [List.length_replicate]
  decide
theorem witness_HostTransactions_long : 256 < (List.replicate 257 1#8).length := by
  rw [List.length_replicate]
  decide
theorem witness_HostTransactions_phases :
    (⟨.loaded, State.reset⟩ : Session).phase ≠ .constructed ∧
      (⟨.ran, State.reset⟩ : Session).phase = .ran ∧ State.reset.status = .running := by decide
theorem witness_EndedRunKeepsItsEnd :
    (runCycles 1 (machineAt 0 [0x01#8])).status ≠ .running ∧ 1 ≤ 2 := by decide
theorem witness_StoppedMachineIsFrozen :
    ((machineAt 0 []).setStatus .halted).status ≠ .running ∧
      (raise .invalidOpcode (machineAt 0 [])).status ≠ .running ∧
      (Session.mk .ran ((machineAt 0 []).setStatus .halted)).machine =
        (machineAt 0 []).setStatus .halted ∧
      (Session.mk .ran ((machineAt 0 []).setStatus .halted)).phase = .ran := by decide
theorem witness_MemoryReadsBackWrites :
    Memory.wf [(255, 1#8)] = true ∧ 255 < 256 ∧ 255 ≤ 255 ∧ 0 ≠ 255 := by decide
theorem witness_MemoryIsDeterminedByItsReads :
    Memory.wf [(3, 1#8)] = true ∧ Memory.wf (Memory.poke [] 3 1#8) = true ∧
      ∀ a, a < 256 → memRead [(3, 1#8)] a = memRead (Memory.poke [] 3 1#8) a :=
  ⟨by decide, by decide, fun _ _ => rfl⟩
theorem witness_OpcodeWordsDecode :
    0x00#8 ∉ [0x01#8, 0x82#8, 0x47#8, 0xA2#8, 0xA0#8, 0x45#8, 0x46#8, 0x50#8, 0x11#8] := by decide
theorem witness_LengthIsInTheTopBits :
    decoder 0x82#8 = some ⟨.loadImmediate, 2, false, false⟩ ∧
      decode [0x82#8, 1#8, 2#8, 3#8] = .ok (.loadImmediate 1#8 2#8, [3#8]) := by decide
theorem witness_DiscardedBytes :
    decoder 0x47#8 = some ⟨.printRegister, 1, false, false⟩ ∧
      decoder 0x11#8 = some ⟨.ret, 0, false, true⟩ := by decide
theorem witness_StepRunsTheDecodedInstruction :
    (machineAt 253 [0x45#8, 1#8]).status = .running ∧
      (machineAt 253 [0x45#8, 1#8]).pc.toNat ≤ 253 ∧
      decodeFetched ((machineAt 253 [0x45#8, 1#8]).byteAt 253)
        ((machineAt 253 [0x45#8, 1#8]).byteAt 254) ((machineAt 253 [0x45#8, 1#8]).byteAt 255) =
        some (.push 1#8) ∧
      ∀ (k : Nat) (h : k < (encode (.push 1#8)).length),
        (machineAt 253 [0x45#8, 1#8]).byteAt (253 + k) = (encode (.push 1#8))[k] := by decide
theorem witness_FetchWordRunsNext :
    State.reset.status = .running ∧ State.reset.pc.toNat ≤ 253 ∧ State.reset.mem.wf = true ∧
      decodeTableWord 16 0x0145 = some (.push 1#8) := by decide
theorem witness_FetchAtTheTopOfMemoryFaults :
    (machineAt 254 [0x01#8]).status = .running ∧ 254 ≤ (machineAt 254 [0x01#8]).pc.toNat ∧
      254 ≤ (machineAt 255 [0x01#8]).pc.toNat := by decide
theorem witness_InvalidOpcodeFaults_invalid :
    (machineAt 253 [0xA1#8]).status = .running ∧ (machineAt 253 [0xA1#8]).pc.toNat ≤ 253 ∧
      (machineAt 253 [0xA1#8]).byteAt 253 ∉ validOpcodes := by decide
/-- A state that already holds such a record meets the second clause's hypotheses. -/
theorem witness_InvalidOpcodeFaults_valid :
    ∃ s t : State, ∃ f : FaultRecord, s.status = .running ∧ s.pc.toNat ≤ 253 ∧
      s.byteAt s.pc.toNat ∈ validOpcodes ∧ step s = .next t ∧ t.fault = some f ∧
      f.kind = .invalidOpcode :=
  ⟨{ machineAt 0 [0x01#8] with fault := some ⟨.invalidOpcode, 0#8, 0#8⟩ },
   { machineAt 0 [0x01#8] with
      fault := some ⟨.invalidOpcode, 0#8, 0#8⟩, pc := 1#8, status := .halted },
   ⟨.invalidOpcode, 0#8, 0#8⟩, by decide, by decide, by decide, rfl, rfl, rfl⟩
theorem witness_FaultCommitsNothingElse :
    (machineAt 254 []).status = .running ∧
      step (machineAt 254 []) = .next (faultOf .outOfBounds (machineAt 254 [])) ∧
      (faultOf .outOfBounds (machineAt 254 [])).status = .faulted ∧
      exec (.push 8#8) (machineAt 0 []) = .next (faultOf .invalidRegister (machineAt 0 [])) ∧
      (faultOf .invalidRegister (machineAt 0 [])).status = .faulted :=
  ⟨rfl, rfl, rfl, rfl, rfl⟩
/-- Only a state no run reaches, one that already holds such a record, meets these hypotheses. -/
theorem witness_UnsupportedOperationIsUnreachable :
    ∃ s t : State, ∃ f : FaultRecord, step s = .next t ∧ t.fault = some f ∧
      f.kind = .unsupportedOperation :=
  ⟨raise .unsupportedOperation (machineAt 0 []), raise .unsupportedOperation (machineAt 0 []),
   ⟨.unsupportedOperation, 0#8, 0#8⟩, rfl, rfl, rfl⟩
theorem witness_StepIsTheWholeCycle : State.reset.status = .running := rfl
theorem witness_StepKeepsTheInvariant :
    (machineAt 0 [0x01#8]).Inv ∧ ∃ t, step (machineAt 0 [0x01#8]) = .next t := by
  refine ⟨⟨by decide, rfl, by decide, ?_, by decide⟩, _, rfl⟩
  intro f hf
  cases hf
theorem witness_EveryRunKeepsTheInvariant :
    ∃ h h' : Session, ∃ r : RunResult,
      Session.load [0x01#8] (Session.construct ⟨0#8⟩) = .ok h ∧ Session.run 2 h = .ok (h', r) ∧
      r = .cleanHalt :=
  ⟨_, _, _, rfl, rfl, by decide⟩
theorem witness_FlagsAndConfigurationNeverChange :
    (∃ t, step (machineAt 0 [0x01#8]) = .next t) ∧ ∃ t, exec .ret (machineAt 0 []) = .next t :=
  ⟨⟨_, rfl⟩, _, rfl⟩
/-- Every branch of the whole-machine rules over a step has a step: one that prints, one that stores, one
that halts and one that does none of these. -/
theorem witness_step_rules :
    after (step (machineAt 0 [0x47#8, 7#8])) (·.out) = some [244#8] ∧
      after (step (machineAt 0 [0x45#8, 7#8])) (·.mem) =
        some [(0, 0x45#8), (1, 7#8), (243, 243#8)] ∧
      after (step (machineAt 253 [0x01#8])) (·.status) = some .halted ∧
      after (step (machineAt 252 [0x82#8, 0#8, 9#8])) (fun t => (t.out, t.status)) =
        some ([], .running) := by decide
theorem witness_AdvanceFollowsTheDecoder :
    encode (.mul 0#8 1#8) = [0xA2#8, 0#8, 1#8] ∧
      decoder 0xA2#8 = some ⟨.mul, 2, true, false⟩ ∧
      after (exec (.mul 0#8 1#8) (machineAt 252 [])) (·.status) = some .running ∧
      encode (.call 6#8) = [0x50#8, 6#8] ∧ decoder 0x50#8 = some ⟨.call, 1, false, true⟩ ∧
      after (exec (.call 6#8) (machineAt 253 [])) (·.status) = some .running ∧
      encode .ret = [0x11#8] ∧ decoder 0x11#8 = some ⟨.ret, 0, false, true⟩ ∧
      after (exec .ret ((machineAt 253 []).writeReg 7 243)) (·.status) = some .running := by decide
theorem witness_HaltCompletes : (machineAt 253 []).pc.toNat ≤ 253 := by decide
theorem witness_LoadImmediateCompletes :
    (7 : RegIx).val = (7#8 : Byte).toNat ∧ (machineAt 252 []).pc.toNat ≤ 252 := by decide
theorem witness_PrintRegisterCompletes :
    (7 : RegIx).val = (7#8 : Byte).toNat ∧ (machineAt 253 []).pc.toNat ≤ 253 := by decide
theorem witness_AddAndMulComplete :
    (0 : RegIx).val = (0#8 : Byte).toNat ∧ (7 : RegIx).val = (7#8 : Byte).toNat ∧
      (machineAt 252 []).pc.toNat ≤ 252 := by decide
/-- PUSH and CALL, at 253 with the stack pointer at 1, R7 and another register. -/
theorem witness_PushCompletes_CallCompletes :
    (0 : RegIx).val = (0#8 : Byte).toNat ∧ (7 : RegIx).val = (7#8 : Byte).toNat ∧
      ((machineAt 253 []).writeReg 7 1).pc.toNat ≤ 253 ∧
      1 ≤ (((machineAt 253 []).writeReg 7 1).reg 7).toNat := by decide
/-- POP and RETURN, at 253 with the stack pointer one below `STACK_TOP` and at 0. -/
theorem witness_PopCompletes_ReturnCompletes :
    (7 : RegIx).val = (7#8 : Byte).toNat ∧ ((machineAt 253 []).writeReg 7 243).pc.toNat ≤ 253 ∧
      (((machineAt 253 []).writeReg 7 243).reg 7).toNat < (machineAt 253 []).config.stackTop.toNat ∧
      (((machineAt 253 []).writeReg 7 0).reg 7).toNat <
        (machineAt 253 []).config.stackTop.toNat := by decide
theorem witness_InvalidRegisterFaults_bad :
    ∃ b ∈ (Instr.add 0#8 8#8).registerOperands, 7 < b.toNat := ⟨8#8, by decide, by decide⟩
theorem witness_InvalidRegisterFaults_good :
    (∀ b ∈ (Instr.add 0#8 7#8).registerOperands, b.toNat ≤ 7) ∧
      ∃ t f, exec .halt { machineAt 0 [] with fault := some ⟨.invalidRegister, 0#8, 0#8⟩ } = .next t ∧
        t.fault = some f ∧ f.kind = .invalidRegister :=
  ⟨by decide, _, _, rfl, rfl, rfl⟩
theorem witness_StackOverflowFaults :
    (7#8 : Byte).toNat ≤ 7 ∧ ((machineAt 0 []).writeReg 7 0).reg 7 = 0#8 ∧
      after (exec (.call 7#8) ((machineAt 0 []).writeReg 7 0)) (fun t => t.fault.map (·.kind)) =
        some (some .stackOverflow) := by decide
theorem witness_StackUnderflowFaults :
    (machineAt 0 []).config.stackTop.toNat ≤ ((machineAt 0 []).reg 7).toNat ∧
      (machineAt 0 []).config.stackTop.toNat ≤ (((machineAt 0 []).writeReg 7 255).reg 7).toNat ∧
      after (exec .ret (machineAt 0 [])) (fun t => t.fault.map (·.kind)) =
        some (some .stackUnderflow) := by decide
theorem witness_AdvancePastTheEndFaults :
    (Instr.add 0#8 7#8).tag = .add ∧ (Instr.add 0#8 7#8).wellFormed = true ∧
      (machineAt 253 []).pc.toNat = 253 := by decide
/-- The frames: every instruction answers a next state that is no fault on the operands given. -/
theorem witness_frames :
    ([Instr.halt, .loadImmediate 7#8 0#8, .printRegister 0#8, .mul 0#8 0#8, .add 7#8 1#8, .push 7#8,
      .pop 7#8, .pop 0#8, .call 1#8, .ret].map
      (fun i => after (exec i ((machineAt 0 []).writeReg 7 243)) (fun t => t.status == .faulted))).all
      (· == some false) = true := by decide
theorem witness_PushAndCallFrame :
    pushAddress (machineAt 0 []) = .ok 243 ∧
      pushAddress ((machineAt 0 []).writeReg 7 0) = .error .stackOverflow := by decide
theorem witness_PushThenPopMovesTheValue :
    (1 : RegIx).val = (1#8 : Byte).toNat ∧ (6 : RegIx).val = (6#8 : Byte).toNat ∧
      (1 : RegIx) ≠ 7 ∧ (6 : RegIx) ≠ 7 ∧ (machineAt 251 []).mem.wf = true ∧
      (machineAt 251 []).pc.toNat ≤ 251 ∧ 1 ≤ ((machineAt 251 []).reg 7).toNat ∧
      ((machineAt 251 []).reg 7).toNat ≤ (machineAt 251 []).config.stackTop.toNat := by decide
theorem witness_CallThenReturnComesBack :
    (6 : RegIx).val = (6#8 : Byte).toNat ∧ (6 : RegIx) ≠ 7 ∧ (machineAt 253 []).mem.wf = true ∧
      (machineAt 253 []).pc.toNat ≤ 253 ∧ 1 ≤ ((machineAt 253 []).reg 7).toNat ∧
      ((machineAt 253 []).reg 7).toNat ≤ (machineAt 253 []).config.stackTop.toNat := by decide
/-- PUSH R0 at 251 with the stack pointer three above PC, R0 an invalid opcode byte (0). -/
def pushesBeforeItself : State := (machineAt 251 [0x45#8, 0#8]).writeReg 7 254

/-- The clauses' two cases: R0 an invalid byte, and R0 the HALT byte. -/
theorem witness_StoredByteIsFetchedNext :
    pushesBeforeItself.status = .running ∧ pushesBeforeItself.mem.wf = true ∧
      pushesBeforeItself.byteAt pushesBeforeItself.pc.toNat = 0x45#8 ∧
      (pushesBeforeItself.byteAt (pushesBeforeItself.pc.toNat + 1)).toNat = (0 : RegIx).val ∧
      (0 : RegIx) ≠ 7 ∧ pushesBeforeItself.pc.toNat ≤ 251 ∧
      (pushesBeforeItself.reg 7).toNat = pushesBeforeItself.pc.toNat + 3 ∧
      pushesBeforeItself.reg 0 ∉ validOpcodes ∧
      (pushesBeforeItself.writeReg 0 1).reg 0 = 0x01#8 ∧
      ((pushesBeforeItself.writeReg 0 1).reg 7).toNat =
        (pushesBeforeItself.writeReg 0 1).pc.toNat + 3 := by decide

end Sys2Proof.Tests
end

section
/-! PROOF. Facts about the operations that the frames and invariants use: what a read of memory or of a
register returns after an update, what `pushAddress` can answer, and all that a completed instruction
and a step can do, as inversion lemmas. -/

namespace Sys2Proof.Machine

@[simp] theorem byteAt_writeReg (s : State) (r : RegIx) (v a : Nat) :
    (s.writeReg r v).byteAt a = s.byteAt a := rfl
@[simp] theorem byteAt_setPc (s : State) (b : Byte) (a : Nat) :
    (s.setPc b).byteAt a = s.byteAt a := rfl
@[simp] theorem byteAt_setStatus (s : State) (st : Status) (a : Nat) :
    (s.setStatus st).byteAt a = s.byteAt a := rfl
@[simp] theorem byteAt_emit (s : State) (b : Byte) (a : Nat) :
    (s.emit b).byteAt a = s.byteAt a := rfl
@[simp] theorem byteAt_raise (k : ErrorKind) (s : State) (a : Nat) :
    (raise k s).byteAt a = s.byteAt a := rfl

/-- A register write changes the register it names (R9, R11). -/
@[simp] theorem reg_writeReg_same (s : State) (i : RegIx) (v : Nat) :
    (s.writeReg i v).reg i = BitVec.ofNat 8 v := by
  rw [reg_writeReg, if_pos rfl]

/-- A register write leaves the other registers alone (R9). -/
theorem reg_writeReg_of_ne (s : State) (i j : RegIx) (v : Nat) (h : j ≠ i) :
    (s.writeReg i v).reg j = s.reg j := by
  rw [reg_writeReg, if_neg h.symm]

/-- A push address is the one below the stack pointer, which is then not 0 (R64). -/
theorem pushAddress_eq_ok {s : State} {a : Nat} (h : pushAddress s = .ok a) :
    1 ≤ s.sp.toNat ∧ a = s.sp.toNat - 1 := by
  unfold pushAddress at h
  split at h
  · cases h
  · cases h
    exact ⟨by omega, rfl⟩

/-- The push address is an error only when the stack pointer is 0 (R78). -/
theorem pushAddress_eq_error {s : State} {k : ErrorKind} (h : pushAddress s = .error k) :
    s.sp.toNat = 0 := by
  unfold pushAddress at h
  split at h
  · assumption
  · cases h

/-- `Commits i s t`: the instruction `i` raises nothing in `s` and leaves `t`, with what that says of
its operands and of `s`. The states are the ones of the `_spec` lemmas; `exec_cases` ties it to `exec`. -/
def Commits (i : Instr) (s t : State) : Prop :=
  match i with
  | .halt =>
    s.pc.toNat + 1 ≤ 255 ∧ t = (s.setPc (BitVec.ofNat 8 (s.pc.toNat + 1))).setStatus .halted
  | .loadImmediate reg value => ∃ r : RegIx, r.val = reg.toNat ∧ s.pc.toNat + 3 ≤ 255 ∧
      t = (s.writeReg r value.toNat).setPc (BitVec.ofNat 8 (s.pc.toNat + 3))
  | .printRegister reg => ∃ r : RegIx, r.val = reg.toNat ∧ s.pc.toNat + 2 ≤ 255 ∧
      t = (s.emit (s.reg r)).setPc (BitVec.ofNat 8 (s.pc.toNat + 2))
  | .mul regA regB => ∃ a b : RegIx, a.val = regA.toNat ∧ b.val = regB.toNat ∧
      s.pc.toNat + 3 ≤ 255 ∧
      t = (s.writeReg a ((s.reg a).toNat * (s.reg b).toNat)).setPc
        (BitVec.ofNat 8 (s.pc.toNat + 3))
  | .add regA regB => ∃ a b : RegIx, a.val = regA.toNat ∧ b.val = regB.toNat ∧
      s.pc.toNat + 3 ≤ 255 ∧
      t = (s.writeReg a ((s.reg a).toNat + (s.reg b).toNat)).setPc
        (BitVec.ofNat 8 (s.pc.toNat + 3))
  | .push reg => ∃ r : RegIx, r.val = reg.toNat ∧ 1 ≤ s.sp.toNat ∧ s.pc.toNat + 2 ≤ 255 ∧
      t = ((s.writeReg spIx (s.sp.toNat - 1)).setMem
        (s.mem.poke (s.sp.toNat - 1) ((s.writeReg spIx (s.sp.toNat - 1)).reg r))).setPc
        (BitVec.ofNat 8 (s.pc.toNat + 2))
  | .pop reg => ∃ r : RegIx, r.val = reg.toNat ∧ s.sp.toNat < s.config.stackTop.toNat ∧
      s.pc.toNat + 2 ≤ 255 ∧
      t = (s.writeReg r (s.byteAt s.sp.toNat).toNat).incrementSp.setPc
        (BitVec.ofNat 8 (s.pc.toNat + 2))
  | .call reg => ∃ r : RegIx, r.val = reg.toNat ∧ 1 ≤ s.sp.toNat ∧
      t = ((s.writeReg spIx (s.sp.toNat - 1)).setMem
        (s.mem.poke (s.sp.toNat - 1) (BitVec.ofNat 8 (s.pc.toNat + 2)))).setPc
        ((s.writeReg spIx (s.sp.toNat - 1)).reg r)
  | .ret => s.sp.toNat < s.config.stackTop.toNat ∧
      t = (s.setPc (s.byteAt s.sp.toNat)).incrementSp

/-- An answered state is the only one: the form in which a `_spec` lemma meets a known next state. -/
theorem next_unique {o : Host.Outcome State Fault Refusal} {t u : State} (ht : o = .next t)
    (hu : o = .next u) : t = u := by
  cases ht.symm.trans hu
  rfl

/-- All an instruction can do: it commits, or a fatal error is taken from the state before (R53, R80). -/
theorem exec_cases {i : Instr} {s t : State} (h : exec i s = .next t) :
    Commits i s t ∨ ∃ k, t = raise k s := by
  cases i with
  | halt =>
    obtain ⟨hp, e⟩ | ⟨-, e⟩ := execHalt_spec s
    · exact .inl ⟨hp, next_unique h e⟩
    · exact .inr ⟨_, next_unique h e⟩
  | loadImmediate reg value =>
    obtain ⟨r, hr, hp, e⟩ | ⟨-, e⟩ | ⟨-, -, e⟩ := execLoadImmediate_spec reg value s
    · exact .inl ⟨r, hr, hp, next_unique h e⟩
    all_goals exact .inr ⟨_, next_unique h e⟩
  | printRegister reg =>
    obtain ⟨r, hr, hp, e⟩ | ⟨-, e⟩ | ⟨-, -, e⟩ := execPrintRegister_spec reg s
    · exact .inl ⟨r, hr, hp, next_unique h e⟩
    all_goals exact .inr ⟨_, next_unique h e⟩
  | mul regA regB =>
    obtain ⟨a, b, ha, hb, hp, e⟩ | ⟨-, e⟩ | ⟨-, -, -, e⟩ := execMul_spec regA regB s
    · exact .inl ⟨a, b, ha, hb, hp, next_unique h e⟩
    all_goals exact .inr ⟨_, next_unique h e⟩
  | add regA regB =>
    obtain ⟨a, b, ha, hb, hp, e⟩ | ⟨-, e⟩ | ⟨-, -, -, e⟩ := execAdd_spec regA regB s
    · exact .inl ⟨a, b, ha, hb, hp, next_unique h e⟩
    all_goals exact .inr ⟨_, next_unique h e⟩
  | push reg =>
    obtain ⟨r, hr, hsp, hp, e⟩ | ⟨-, e⟩ | ⟨-, -, e⟩ | ⟨-, -, -, e⟩ := execPush_spec reg s
    · exact .inl ⟨r, hr, hsp, hp, next_unique h e⟩
    all_goals exact .inr ⟨_, next_unique h e⟩
  | pop reg =>
    obtain ⟨r, hr, hsp, hp, e⟩ | ⟨-, e⟩ | ⟨-, -, e⟩ | ⟨-, -, -, e⟩ := execPop_spec reg s
    · exact .inl ⟨r, hr, hsp, hp, next_unique h e⟩
    all_goals exact .inr ⟨_, next_unique h e⟩
  | call reg =>
    obtain ⟨r, hr, hsp, e⟩ | ⟨-, e⟩ | ⟨-, -, e⟩ := execCall_spec reg s
    · exact .inl ⟨r, hr, hsp, next_unique h e⟩
    all_goals exact .inr ⟨_, next_unique h e⟩
  | ret =>
    obtain ⟨hsp, e⟩ | ⟨-, e⟩ := execRet_spec s
    · exact .inl ⟨hsp, next_unique h e⟩
    · exact .inr ⟨_, next_unique h e⟩

/-- All a step can do: a stopped machine stays, a running one takes a fatal error, or the instruction at
PC commits. -/
theorem step_cases {s t : State} (h : step s = .next t) :
    (s.status ≠ .running ∧ t = s) ∨ (s.status = .running ∧ ∃ k, t = raise k s) ∨
    (∃ d, s.status = .running ∧ s.pc.toNat ≤ 253 ∧ decoder (s.byteAt s.pc.toNat) = some d ∧
      Commits (assemble d.tag (s.byteAt (s.pc.toNat + 1)) (s.byteAt (s.pc.toNat + 2))) s t) := by
  obtain ⟨hs, e⟩ | ⟨hs, -, e⟩ | ⟨hs, -, -, e⟩ | ⟨d, hs, hp, hd, e⟩ := step_spec s
  · exact .inl ⟨hs, next_unique h e⟩
  · exact .inr (.inl ⟨hs, _, next_unique h e⟩)
  · exact .inr (.inl ⟨hs, _, next_unique h e⟩)
  · obtain hc | hk := exec_cases (e.symm.trans h)
    · exact .inr (.inr ⟨d, hs, hp, hd, hc⟩)
    · exact .inr (.inl ⟨hs, hk⟩)

/-- PUSH and CALL commit the same shape: the stack pointer one lower and one byte stored there (R65,
R68); they differ in the byte and in the new PC. -/
theorem commits_push_or_call {reg : Byte} {s t : State}
    (h : Commits (.push reg) s t ∨ Commits (.call reg) s t) :
    1 ≤ s.sp.toNat ∧ ∃ v p : Byte, t = ((s.writeReg spIx (s.sp.toNat - 1)).setMem
      (s.mem.poke (s.sp.toNat - 1) v)).setPc p := by
  obtain ⟨r, -, hsp, -, e⟩ | ⟨r, -, hsp, e⟩ := h
  · exact ⟨hsp, _, _, e⟩
  · exact ⟨hsp, _, _, e⟩

/-- What every committed instruction leaves unchanged: FL (R16) and the configuration (R5), and `OUT`
unless it is PRINT_REGISTER (R20, R58). -/
theorem commits_frame {i : Instr} {s t : State} (h : Commits i s t) :
    t.fl = s.fl ∧ t.config = s.config ∧ (t.out = s.out ∨ ∃ reg, i = .printRegister reg) := by
  cases i with
  | halt => obtain ⟨-, rfl⟩ := h; exact ⟨rfl, rfl, .inl rfl⟩
  | loadImmediate reg value => obtain ⟨r, -, -, rfl⟩ := h; exact ⟨rfl, rfl, .inl rfl⟩
  | printRegister reg => obtain ⟨r, -, -, rfl⟩ := h; exact ⟨rfl, rfl, .inr ⟨reg, rfl⟩⟩
  | mul regA regB => obtain ⟨a, b, -, -, -, rfl⟩ := h; exact ⟨rfl, rfl, .inl rfl⟩
  | add regA regB => obtain ⟨a, b, -, -, -, rfl⟩ := h; exact ⟨rfl, rfl, .inl rfl⟩
  | push reg =>
    obtain ⟨-, v, p, rfl⟩ := commits_push_or_call (.inl h)
    exact ⟨rfl, rfl, .inl rfl⟩
  | pop reg => obtain ⟨r, -, -, -, rfl⟩ := h; exact ⟨rfl, rfl, .inl rfl⟩
  | call reg =>
    obtain ⟨-, v, p, rfl⟩ := commits_push_or_call (.inr h)
    exact ⟨rfl, rfl, .inl rfl⟩
  | ret => obtain ⟨-, rfl⟩ := h; exact ⟨rfl, rfl, .inl rfl⟩

/-- No committed instruction writes FL or the configuration. -/
theorem commits_fl_config {i : Instr} {s t : State} (h : Commits i s t) :
    t.fl = s.fl ∧ t.config = s.config := by
  obtain ⟨hfl, hconfig, -⟩ := commits_frame h
  exact ⟨hfl, hconfig⟩

/-- What is assembled from a decoded opcode byte is encoded with that byte first (R34, R37). -/
theorem encode_assemble_head {ir : Byte} {d : Decoded} (opa opb : Byte) (h : decoder ir = some d) :
    (encode (assemble d.tag opa opb)).head? = some ir := by
  rcases decoder_cases ir with ⟨rfl, e⟩ | ⟨rfl, e⟩ | ⟨rfl, e⟩ | ⟨rfl, e⟩ | ⟨rfl, e⟩ | ⟨rfl, e⟩ |
    ⟨rfl, e⟩ | ⟨rfl, e⟩ | ⟨rfl, e⟩ | ⟨-, e⟩
  all_goals cases h.symm.trans e
  all_goals rfl

/-- PRINT_REGISTER's operand is the byte after the opcode (R41). -/
theorem assemble_eq_printRegister {tag : Tag} {opa opb reg : Byte}
    (h : assemble tag opa opb = .printRegister reg) : reg = opa := by
  cases tag
  case printRegister => cases h; rfl
  all_goals cases h

end Sys2Proof.Machine
end

section
/-! PROOF. Noninterference of FL and of what `OUT` already holds (R16, R20): every operation and every
handler commutes with putting another FL and an earlier output into the state. -/

namespace Sys2Proof.Machine

/-- The state with FL replaced and an earlier output put before its own. -/
def State.withFlOut (f : Byte) (o : List Byte) (s : State) : State :=
  { s with fl := f, out := o ++ s.out }

/-- The same change made in the state an outcome carries. -/
def outcomeWithFlOut (f : Byte) (o : List Byte) :
    Host.Outcome State Fault Refusal → Host.Outcome State Fault Refusal
  | .next t => .next (t.withFlOut f o)
  | .fault r => .fault r
  | .refused r => .refused r

section
variable (f : Byte) (o : List Byte) (s : State)

@[simp] theorem withFlOut_pc : (s.withFlOut f o).pc = s.pc := rfl
@[simp] theorem withFlOut_mem : (s.withFlOut f o).mem = s.mem := rfl
@[simp] theorem withFlOut_status : (s.withFlOut f o).status = s.status := rfl
@[simp] theorem withFlOut_reg (i : RegIx) : (s.withFlOut f o).reg i = s.reg i := rfl
@[simp] theorem withFlOut_sp : (s.withFlOut f o).sp = s.sp := rfl
@[simp] theorem withFlOut_byteAt (a : Nat) : (s.withFlOut f o).byteAt a = s.byteAt a := rfl

@[simp] theorem writeReg_withFlOut (r : RegIx) (v : Nat) :
    (s.withFlOut f o).writeReg r v = (s.writeReg r v).withFlOut f o := rfl
@[simp] theorem setPc_withFlOut (b : Byte) :
    (s.withFlOut f o).setPc b = (s.setPc b).withFlOut f o := rfl
@[simp] theorem setMem_withFlOut (m : Memory) :
    (s.withFlOut f o).setMem m = (s.setMem m).withFlOut f o := rfl
@[simp] theorem setStatus_withFlOut (st : Status) :
    (s.withFlOut f o).setStatus st = (s.setStatus st).withFlOut f o := rfl
@[simp] theorem incrementSp_withFlOut :
    (s.withFlOut f o).incrementSp = s.incrementSp.withFlOut f o := rfl
@[simp] theorem raise_withFlOut (k : ErrorKind) :
    raise k (s.withFlOut f o) = (raise k s).withFlOut f o := rfl

/-- An append at the end and the earlier output at the front do not meet. -/
@[simp] theorem emit_withFlOut (b : Byte) :
    (s.withFlOut f o).emit b = (s.emit b).withFlOut f o := by
  simp only [State.emit, State.withFlOut, List.append_assoc]

@[simp] theorem autoAdvance_withFlOut (n : Nat) :
    autoAdvance n (s.withFlOut f o) = State.withFlOut f o <$> autoAdvance n s := by
  obtain ⟨h, e⟩ | ⟨h, e⟩ := autoAdvance_cases n s
  · rw [e, autoAdvance_ok n (s.withFlOut f o) h]; rfl
  · rw [e, autoAdvance_error n (s.withFlOut f o) h]; rfl

@[simp] theorem decrementSp_withFlOut :
    decrementSp (s.withFlOut f o) = State.withFlOut f o <$> decrementSp s := by
  by_cases h : s.sp.toNat = 0
  · rw [decrementSp_error s h, decrementSp_error (s.withFlOut f o) h]; rfl
  · have hsp : 1 ≤ s.sp.toNat := by omega
    rw [decrementSp_ok s hsp, decrementSp_ok (s.withFlOut f o) hsp]; rfl

@[simp] theorem loadTop_withFlOut : loadTop (s.withFlOut f o) = loadTop s := rfl

@[simp] theorem store_withFlOut (a v : Nat) :
    (s.withFlOut f o).store a v = State.withFlOut f o <$> s.store a v := by
  simp only [State.store, withFlOut_mem, setMem_withFlOut, map_bind, map_pure]

@[simp] theorem aluBlock_withFlOut (op : AluOp) (a b : RegIx) :
    aluBlock op a b (s.withFlOut f o) = State.withFlOut f o <$> aluBlock op a b s := by
  simp only [aluBlock, withFlOut_reg, writeReg_withFlOut, map_bind, map_pure]

@[simp] theorem fetchDecode_withFlOut : fetchDecode (s.withFlOut f o) = fetchDecode s := rfl

/-- A cycle's end commutes: a committed state is carried along, and an error's record reads neither FL
nor `OUT` (R80). -/
theorem complete_withFlOut (r : Except ErrorKind State) :
    complete (s.withFlOut f o) (State.withFlOut f o <$> r) = outcomeWithFlOut f o (complete s r) := by
  cases r <;> rfl

/-- No instruction reads FL or `OUT`: every handler is made of operations that commute. -/
theorem exec_withFlOut (i : Instr) :
    exec i (s.withFlOut f o) = outcomeWithFlOut f o (exec i s) := by
  cases i
  case halt => simp [exec, execHalt, ← complete_withFlOut]
  case loadImmediate reg value => simp [exec, execLoadImmediate, ← complete_withFlOut]
  case printRegister reg => simp [exec, execPrintRegister, ← complete_withFlOut]
  case mul regA regB => simp [exec, execMul, ← complete_withFlOut]
  case add regA regB => simp [exec, execAdd, ← complete_withFlOut]
  case push reg => simp [exec, execPush, ← complete_withFlOut]
  case pop reg => simp [exec, execPop, ← complete_withFlOut]
  case call reg => simp [exec, execCall, ← complete_withFlOut]
  case ret => simp [exec, execRet, ← complete_withFlOut]

/-- No step reads FL or `OUT`. -/
theorem step_withFlOut : step (s.withFlOut f o) = outcomeWithFlOut f o (step s) := by
  by_cases h : s.status = .running
  · rw [step_running s h, step_running (s.withFlOut f o) h, fetchDecode_withFlOut]
    cases fetchDecode s with
    | ok i => exact exec_withFlOut f o s i
    | error k => rfl
  · rw [step_stopped s h, step_stopped (s.withFlOut f o) h]; rfl

end

end Sys2Proof.Machine
end

section
/-! PROOF. The statements of 10_state.md. -/

namespace Sys2Proof.Machine

/-- A machine that is not running goes nowhere under the host's driver (R18). -/
theorem core_run_stopped (n : Nat) (s : State) (h : s.status ≠ .running) :
    Host.Core.run Sys2Proof.core n s = .next s := by
  induction n with
  | zero => rfl
  | succ n ih => rw [run_next n s s (step_stopped s h), ih]

/-- Settles O6: a step of a stopped machine is the identity, so by induction is any run. -/
theorem stoppedMachineIsFrozen : Obligations.StoppedMachineIsFrozen := by
  intro n s hs
  refine ⟨core_run_stopped n s hs, runCycles_stopped n s hs, fun image h _ hphase => ?_⟩
  simp only [Session.load, Session.run, hphase, and_self]

/-- No instruction changes FL or the configuration, whether it commits or raises. -/
theorem exec_fl_config {i : Instr} {s t : State} (h : exec i s = .next t) :
    t.fl = s.fl ∧ t.config = s.config := by
  obtain hc | ⟨k, rfl⟩ := exec_cases h
  · exact commits_fl_config hc
  · exact ⟨rfl, rfl⟩

/-- Settles O25, by the cases of a step and of an instruction. -/
theorem flagsAndConfigurationNeverChange : Obligations.FlagsAndConfigurationNeverChange := by
  refine ⟨fun s t h => ?_, fun i s t h => exec_fl_config h⟩
  obtain ⟨-, rfl⟩ | ⟨-, k, rfl⟩ | ⟨d, -, -, -, hc⟩ := step_cases h
  · exact ⟨rfl, rfl⟩
  · exact ⟨rfl, rfl⟩
  · exact commits_fl_config hc

/-- Settles O26: a step commutes with the change of FL and of the earlier output. -/
theorem flagsAndOutputDoNotInfluence : Obligations.FlagsAndOutputDoNotInfluence := by
  intro s t f o h
  have hstep := step_withFlOut f o s
  rw [h] at hstep
  exact hstep

/-- Settles O27: the only instruction that commits another `OUT` is PRINT_REGISTER, and its opcode byte
and operand are the bytes fetched at PC. -/
theorem outputGrowsOnlyByPrint : Obligations.OutputGrowsOnlyByPrint := by
  intro s t h
  obtain ⟨-, rfl⟩ | ⟨-, k, rfl⟩ | ⟨d, hs, -, hd, hc⟩ := step_cases h
  · exact .inl rfl
  · exact .inl rfl
  · obtain ⟨-, -, hout | ⟨reg, hi⟩⟩ := commits_frame hc
    · exact .inl hout
    · have hop := encode_assemble_head (s.byteAt (s.pc.toNat + 1)) (s.byteAt (s.pc.toNat + 2)) hd
      rw [hi] at hc hop
      obtain ⟨r, hr, -, rfl⟩ := hc
      rw [assemble_eq_printRegister hi] at hr
      exact .inr ⟨hs, hs, (Option.some.inj hop).symm, r, hr, rfl⟩

/-- Settles O43, each instruction by what it commits or the fatal error. -/
theorem haltLoadPrintFrame : Obligations.HaltLoadPrintFrame := by
  refine ⟨fun s t h => ?_, fun reg value s t h => ?_, fun reg s t h => ?_⟩
  · obtain ⟨-, rfl⟩ | ⟨k, rfl⟩ := exec_cases h <;> simp
  · obtain ⟨r, hr, -, rfl⟩ | ⟨k, rfl⟩ := exec_cases h
    · have hregs : ∀ i : RegIx, i.val ≠ reg.toNat →
          (s.writeReg r value.toNat).reg i = s.reg i :=
        fun i hi => reg_writeReg_of_ne s r i _ (fun e => hi (e ▸ hr))
      simpa using hregs
    · simp
  · obtain ⟨r, -, -, rfl⟩ | ⟨k, rfl⟩ := exec_cases h <;> simp

/-- Settles O45: the one cell stored is the one at `pushAddress`, and where that raises nothing
commits. -/
theorem pushAndCallFrame : Obligations.PushAndCallFrame := by
  intro reg s t h
  have hcases : (Commits (.push reg) s t ∨ Commits (.call reg) s t) ∨ ∃ k, t = raise k s :=
    h.elim (fun e => (exec_cases e).imp_left .inl) (fun e => (exec_cases e).imp_left .inr)
  obtain hc | ⟨k, rfl⟩ := hcases
  · obtain ⟨hsp, v, p, rfl⟩ := commits_push_or_call hc
    refine ⟨fun i hi => reg_writeReg_of_ne s spIx i _ hi, rfl, rfl, rfl, .inl ⟨rfl, rfl⟩,
      fun a ha b hb => ?_, fun k hk => ?_⟩
    · obtain ⟨-, rfl⟩ := pushAddress_eq_ok ha
      exact peek_poke_other s.mem _ b v hb.symm
    · have := pushAddress_eq_error hk
      omega
  · simp

/-- Settles O46: POP writes its own register and then the stack pointer, RETURN the stack pointer. -/
theorem popAndReturnFrame : Obligations.PopAndReturnFrame := by
  refine ⟨fun reg s t h => ?_, fun s t h => ?_⟩
  · obtain ⟨r, hr, -, -, rfl⟩ | ⟨k, rfl⟩ := exec_cases h
    · refine ⟨fun i h7 hi => ?_, rfl, rfl, rfl, .inl ⟨rfl, rfl⟩, fun a => rfl⟩
      have hir : i ≠ r := fun e => hi (e ▸ hr)
      exact (reg_writeReg_of_ne _ spIx i _ h7).trans (reg_writeReg_of_ne s r i _ hir)
    · simp
  · obtain ⟨-, rfl⟩ | ⟨k, rfl⟩ := exec_cases h
    · exact ⟨fun i h7 => reg_writeReg_of_ne _ spIx i _ h7, rfl, rfl, rfl, .inl ⟨rfl, rfl⟩,
        fun a => rfl⟩
    · simp

/-- Every constructed register is 0 but the stack pointer (R22). -/
theorem reg_construct (c : Config) (i : RegIx) :
    (State.construct c).reg i = if i = 7 then c.stackTop else 0#8 := by
  simp only [State.reg, State.construct, Fin.getElem_fin, Vector.getElem_set,
    Vector.getElem_replicate, Fin.ext_iff]
  exact if_congr eq_comm rfl rfl

/-- Settles O1, row by row of R22. -/
theorem constructGivesTheResetValues : Obligations.ConstructGivesTheResetValues :=
  fun c => ⟨reg_construct c, rfl, rfl, fun a ha => memRead_ok [] a ha, rfl, rfl, rfl, rfl⟩

/-- Settles O9. -/
theorem registerFileReadsBackWrites : Obligations.RegisterFileReadsBackWrites := by
  intro s i v
  refine ⟨?_, fun j hj => reg_writeReg_of_ne s i j v hj, rfl⟩
  rw [reg_writeReg_same, BitVec.toNat_ofNat]

/-- A constructed machine meets the invariant: memory is empty, FL is 0, and it is running without a
fault record, so the clauses on faulted and halted machines say nothing of it. -/
theorem construct_inv (c : Config) : (State.construct c).Inv where
  memory_wf := rfl
  fl_zero := rfl
  fault_written := by simp [State.construct]
  fault_precise _ hf := by cases hf
  halt_byte hs := by cases hs

/-- Settles O23; `State.reset` is a construction. -/
theorem constructionMeetsTheInvariant : Obligations.ConstructionMeetsTheInvariant :=
  ⟨construct_inv, construct_inv resetConfig⟩

end Sys2Proof.Machine
end

section
/-! PROOF. The canonical form head first: what a listed cell says of the reads, and that the reads in
range determine the list. -/

namespace Sys2Proof.Machine

/-- The canonical form of a list with a first cell. -/
theorem wfFrom_cons {lo k : Nat} {v : Byte} {m : Memory} :
    Memory.wfFrom lo ((k, v) :: m) = true ↔
      lo ≤ k ∧ k < 256 ∧ v ≠ unwrittenByte ∧ Memory.wfFrom (k + 1) m = true := by
  simp only [Memory.wfFrom, Bool.and_eq_true, decide_eq_true_eq, and_assoc]

/-- The first listed cell reads as its own byte. -/
theorem peek_cons_same (k : Nat) (v : Byte) (m : Memory) : Memory.peek ((k, v) :: m) k = v := by
  rw [Memory.peek, if_pos rfl]

/-- Another address reads as it does in the cells after the first. -/
theorem peek_cons_of_ne {k a : Nat} (v : Byte) (m : Memory) (h : k ≠ a) :
    Memory.peek ((k, v) :: m) a = m.peek a := by
  rw [Memory.peek, if_neg h]

/-- A listed cell differs from what a memory that lists only higher addresses reads there. -/
theorem peek_head_ne {lo k : Nat} {v : Byte} {m m' : Memory}
    (h : Memory.wfFrom lo ((k, v) :: m) = true) (h' : Memory.wfFrom (k + 1) m' = true) :
    Memory.peek ((k, v) :: m) k ≠ m'.peek k := by
  obtain ⟨-, -, hv, -⟩ := wfFrom_cons.mp h
  rw [peek_cons_same, peek_below m' (k + 1) k h' (by omega)]
  exact hv

/-- Reads determine the canonical form: memories listed from `lo` up that read alike from `lo` up are
the same list. The first cells have to be the same one, since the lower of two would be read in one
memory only. -/
theorem eq_of_peek_eq_from {lo : Nat} {m m' : Memory} (h : Memory.wfFrom lo m = true)
    (h' : Memory.wfFrom lo m' = true)
    (hread : ∀ a, lo ≤ a → a < 256 → m.peek a = m'.peek a) : m = m' := by
  induction m generalizing lo m' with
  | nil =>
    cases m' with
    | nil => rfl
    | cons c' m' =>
      obtain ⟨hlo, hk, -, -⟩ := wfFrom_cons.mp h'
      exact absurd (hread c'.1 hlo hk).symm (peek_head_ne h' rfl)
  | cons c m ih =>
    obtain ⟨k, v⟩ := c
    obtain ⟨hlo, hk, hv, hm⟩ := wfFrom_cons.mp h
    cases m' with
    | nil => exact absurd (hread k hlo hk) (peek_head_ne h rfl)
    | cons c' m' =>
      obtain ⟨k', v'⟩ := c'
      obtain ⟨hlo', hk', hv', hm'⟩ := wfFrom_cons.mp h'
      obtain hlt | rfl | hgt := Nat.lt_trichotomy k k'
      · exact absurd (hread k hlo hk)
          (peek_head_ne h (wfFrom_cons.mpr ⟨hlt, hk', hv', hm'⟩))
      · have hvv : v = v' := by
          simpa only [peek_cons_same] using hread k hlo hk
        have htail : m = m' := ih hm hm' fun a ha ha' => by
          have hka : k ≠ a := by omega
          simpa only [peek_cons_of_ne _ _ hka] using hread a (by omega) ha'
        rw [hvv, htail]
      · exact absurd (hread k' hlo' hk').symm
          (peek_head_ne h' (wfFrom_cons.mpr ⟨hgt, hk, hv, hm⟩))

end Sys2Proof.Machine
end

section
/-! PROOF. The cycle where its case is known: which of its ends a fetched byte selects, what HALT and
PUSH commit under the conditions of their rules, and which instructions store. -/

namespace Sys2Proof.Machine

/-- A byte outside the closed set fails to decode (R40). -/
theorem decoder_eq_none_of_not_mem {ir : Byte} (h : ir ∉ validOpcodes) : decoder ir = none := by
  obtain ⟨rfl, -⟩ | ⟨rfl, -⟩ | ⟨rfl, -⟩ | ⟨rfl, -⟩ | ⟨rfl, -⟩ | ⟨rfl, -⟩ | ⟨rfl, -⟩ | ⟨rfl, -⟩ |
    ⟨rfl, -⟩ | ⟨-, e⟩ := decoder_cases ir
  case inr.inr.inr.inr.inr.inr.inr.inr.inr => exact e
  all_goals exact absurd (by decide) h

/-- A running machine executes the instruction its fetched bytes decode to (R47 to R49). -/
theorem step_eq_exec {s : State} {d : Decoded} (hs : s.status = .running) (hp : s.pc.toNat ≤ 253)
    (hd : decoder (s.byteAt s.pc.toNat) = some d) :
    step s =
      exec (assemble d.tag (s.byteAt (s.pc.toNat + 1)) (s.byteAt (s.pc.toNat + 2))) s := by
  rw [step_running s hs, fetchDecode_inRange s hp, decodeFetched_of_decoder _ _ _ d hd]

/-- A running machine that fetches an invalid opcode byte takes `InvalidOpcode` (R48, R74). -/
theorem step_invalidOpcode {s : State} (hs : s.status = .running) (hp : s.pc.toNat ≤ 253)
    (hd : s.byteAt s.pc.toNat ∉ validOpcodes) : step s = .next (raise .invalidOpcode s) := by
  rw [step_running s hs, fetchDecode_inRange s hp,
    decodeFetched_of_invalid _ _ _ (decoder_eq_none_of_not_mem hd)]

/-- HALT where PC can advance: one past it, and halted (R56, D15). -/
theorem exec_halt_ok {s : State} (hp : s.pc.toNat + 1 ≤ 255) :
    exec .halt s = .next { s with pc := s.pc + 1#8, status := .halted } := by
  have hpc : BitVec.ofNat 8 (s.pc.toNat + 1) = s.pc + 1#8 := by simp [BitVec.ofNat_add]
  obtain ⟨-, e⟩ | ⟨hover, -⟩ := execHalt_spec s
  · rw [hpc] at e
    exact e
  · omega

/-- PUSH of a register with the stack pointer above 0 and room for the advance (R65). -/
theorem exec_push_ok {reg : Byte} {r : RegIx} {s : State} (hr : r.val = reg.toNat)
    (hsp : 1 ≤ s.sp.toNat) (hp : s.pc.toNat + 2 ≤ 255) :
    exec (.push reg) s =
      .next (((s.writeReg spIx (s.sp.toNat - 1)).setMem
        (s.mem.poke (s.sp.toNat - 1) ((s.writeReg spIx (s.sp.toNat - 1)).reg r))).setPc
        (BitVec.ofNat 8 (s.pc.toNat + 2))) := by
  obtain ⟨r', hr', -, -, e⟩ | ⟨hbad, -⟩ | ⟨-, hzero, -⟩ | ⟨-, -, hover, -⟩ := execPush_spec reg s
  · obtain rfl : r' = r := Fin.ext (hr'.trans hr.symm)
    exact e
  all_goals omega

/-- What PUSH of a register other than 7 leaves to the next cycle: the status, PC two further, and the
register's value in the cell below the old stack pointer (R65). -/
theorem exec_push_stores {reg : Byte} {r : RegIx} {s : State} (hr : r.val = reg.toNat) (hr7 : r ≠ 7)
    (hm : s.mem.wf = true) (hsp : 1 ≤ s.sp.toNat) (hp : s.pc.toNat + 2 ≤ 255) :
    ∃ t, exec (.push reg) s = .next t ∧ t.status = s.status ∧ t.pc.toNat = s.pc.toNat + 2 ∧
      t.byteAt (s.sp.toNat - 1) = s.reg r := by
  have h := exec_push_ok hr hsp hp
  rw [reg_writeReg_of_ne s spIx r _ hr7] at h
  refine ⟨_, h, rfl, ?_, peek_poke_same s.mem _ _ hm⟩
  rw [setPc_pc, BitVec.toNat_ofNat]
  omega

/-- A committed PUSH or CALL changes no cell but the one below the stack pointer (R65, R68). -/
theorem commits_push_or_call_byteAt {reg : Byte} {s t : State}
    (h : Commits (.push reg) s t ∨ Commits (.call reg) s t) :
    1 ≤ s.sp.toNat ∧ ∀ a, a ≠ s.sp.toNat - 1 → t.byteAt a = s.byteAt a := by
  obtain ⟨hsp, v, p, rfl⟩ := commits_push_or_call h
  exact ⟨hsp, fun a ha => peek_poke_other s.mem _ a v ha.symm⟩

/-- Of the committed instructions only PUSH and CALL, known by their opcode bytes, store, and they store
below the stack pointer (R27). -/
theorem commits_mem {i : Instr} {s t : State} (h : Commits i s t) :
    t.mem = s.mem ∨ ∃ op ∈ [0x45#8, 0x50#8], (encode i).head? = some op ∧
      1 ≤ s.sp.toNat ∧ ∀ a, a ≠ s.sp.toNat - 1 → t.byteAt a = s.byteAt a := by
  cases i with
  | halt => obtain ⟨-, rfl⟩ := h; exact .inl rfl
  | loadImmediate reg value => obtain ⟨r, -, -, rfl⟩ := h; exact .inl rfl
  | printRegister reg => obtain ⟨r, -, -, rfl⟩ := h; exact .inl rfl
  | mul regA regB => obtain ⟨a, b, -, -, -, rfl⟩ := h; exact .inl rfl
  | add regA regB => obtain ⟨a, b, -, -, -, rfl⟩ := h; exact .inl rfl
  | push reg => exact .inr ⟨0x45#8, by simp, rfl, commits_push_or_call_byteAt (.inl h)⟩
  | pop reg => obtain ⟨r, -, -, -, rfl⟩ := h; exact .inl rfl
  | call reg => exact .inr ⟨0x50#8, by simp, rfl, commits_push_or_call_byteAt (.inr h)⟩
  | ret => obtain ⟨-, rfl⟩ := h; exact .inl rfl

end Sys2Proof.Machine
end

section
/-! PROOF. The statements of 20_memory.md. -/

namespace Sys2Proof.Machine

/-- Settles O7, by the bound on the unreduced address and then a read after the write. -/
theorem memoryReadsBackWrites : Obligations.MemoryReadsBackWrites := by
  intro m addr v hm
  refine ⟨fun h => ⟨memRead_error m addr h, memWrite_error m addr v h⟩, fun h => ?_⟩
  refine ⟨memRead_ok m addr h, _, memWrite_ok m addr v h, wf_poke m addr _ hm (by omega), ?_,
    fun b hb => ?_⟩
  · rw [memRead_ok _ addr h, peek_poke_same m addr _ hm]
  · simp only [memRead, peek_poke_other m addr b _ hb.symm]

/-- Settles O8: the reads in range determine the canonical form. -/
theorem memoryIsDeterminedByItsReads : Obligations.MemoryIsDeterminedByItsReads := by
  intro m m' hm hm' hread
  refine eq_of_peek_eq_from hm hm' fun a _ ha => ?_
  have h := hread a (by omega)
  rw [memRead_ok m a (by omega), memRead_ok m' a (by omega)] at h
  exact Except.ok.inj h

/-- Settles O28: only a committed PUSH or CALL stores, and its opcode byte is the one fetched at PC. -/
theorem onlyPushAndCallStore : Obligations.OnlyPushAndCallStore := by
  intro s t h
  obtain ⟨-, rfl⟩ | ⟨-, k, rfl⟩ | ⟨d, hs, -, hd, hc⟩ := step_cases h
  · exact .inl rfl
  · exact .inl rfl
  · obtain hmem | ⟨op, hstores, hhead, hcells⟩ := commits_mem hc
    · exact .inl hmem
    · have hfetched :=
        encode_assemble_head (s.byteAt (s.pc.toNat + 1)) (s.byteAt (s.pc.toNat + 2)) hd
      obtain rfl := Option.some.inj (hhead.symm.trans hfetched)
      exact .inr ⟨hs, hstores, hcells⟩

/-- Settles O49: the cell below the stack pointer is where PC stands after the PUSH, so the next fetch
reads the stored byte. -/
theorem storedByteIsFetchedNext : Obligations.StoredByteIsFetchedNext := by
  intro s r hs hm hop hreg hr7 hp hsp
  have hsp' : s.sp.toNat = s.pc.toNat + 3 := hsp
  have hd : decoder (s.byteAt s.pc.toNat) = some ⟨.push, 1, false, false⟩ := by rw [hop]; rfl
  obtain ⟨t, ht, hstatus, hpc, hstored⟩ :=
    exec_push_stores hreg.symm hr7 hm (by omega) (by omega)
  have hrun : t.status = .running := hstatus.trans hs
  have hbyte : t.byteAt t.pc.toNat = s.reg r := by
    have haddr : t.pc.toNat = s.sp.toNat - 1 := by omega
    rw [haddr, hstored]
  refine ⟨t, (step_eq_exec hs (by omega) hd).trans ht, hpc, hbyte, fun hinvalid => ?_,
    fun hhalt => ?_⟩
  · exact step_invalidOpcode hrun (by omega) (by rwa [hbyte])
  · have hdecode : decoder (t.byteAt t.pc.toNat) = some ⟨.halt, 0, false, false⟩ := by
      rw [hbyte, hhalt]; rfl
    exact (step_eq_exec hrun (by omega) hdecode).trans (exec_halt_ok (by omega))

end Sys2Proof.Machine
end

section
/-! PROOF. Decoding a list of bytes as the Decoder's rows give it: what the encoder makes of an assembled
instruction, that bytes beyond the operand count do not matter, and all that `decode` can answer. -/

namespace Sys2Proof

/-- The length of an instruction stands in bits 7:6 of its opcode byte (R36). -/
theorem decoder_operandCount_eq {ir : Byte} {d : Decoded} (h : decoder ir = some d) :
    d.operandCount = (ir >>> 6).toNat := by
  have rows : ∀ b : Byte, ∀ c ∈ (decoder b).map (·.operandCount), c = (b >>> 6).toNat := by decide
  exact rows ir _ (by simp [h])

/-- What is assembled for a valid opcode byte is encoded as that byte and as many of the two operand
bytes as the Decoder counts (R34, R35, R41). -/
theorem encode_assemble {ir : Byte} {d : Decoded} (opa opb : Byte) (h : decoder ir = some d) :
    encode (assemble d.tag opa opb) = ir :: [opa, opb].take d.operandCount := by
  rcases decoder_cases ir with ⟨rfl, e⟩ | ⟨rfl, e⟩ | ⟨rfl, e⟩ | ⟨rfl, e⟩ | ⟨rfl, e⟩ | ⟨rfl, e⟩ |
    ⟨rfl, e⟩ | ⟨rfl, e⟩ | ⟨rfl, e⟩ | ⟨-, e⟩
  all_goals cases h.symm.trans e
  all_goals rfl

/-- Only the operand bytes the Decoder counts are interpreted (R41). -/
theorem assemble_eq_of_take_eq {ir : Byte} {d : Decoded} {opa opb opa' opb' : Byte}
    (h : decoder ir = some d)
    (htake : [opa, opb].take d.operandCount = [opa', opb'].take d.operandCount) :
    assemble d.tag opa opb = assemble d.tag opa' opb' := by
  rcases decoder_cases ir with ⟨-, e⟩ | ⟨-, e⟩ | ⟨-, e⟩ | ⟨-, e⟩ | ⟨-, e⟩ | ⟨-, e⟩ |
    ⟨-, e⟩ | ⟨-, e⟩ | ⟨-, e⟩ | ⟨-, e⟩
  all_goals cases h.symm.trans e
  all_goals cases htake
  all_goals rfl

/-- Every instruction is assembled from the operand bytes of a valid opcode byte (R37, R41). -/
theorem exists_eq_assemble (i : Instr) :
    ∃ ir d opa opb, decoder ir = some d ∧ i = assemble d.tag opa opb := by
  cases i with
  | halt => exact ⟨0x01#8, _, 0#8, 0#8, rfl, rfl⟩
  | loadImmediate reg value => exact ⟨0x82#8, _, reg, value, rfl, rfl⟩
  | printRegister reg => exact ⟨0x47#8, _, reg, 0#8, rfl, rfl⟩
  | mul regA regB => exact ⟨0xA2#8, _, regA, regB, rfl, rfl⟩
  | add regA regB => exact ⟨0xA0#8, _, regA, regB, rfl, rfl⟩
  | push reg => exact ⟨0x45#8, _, reg, 0#8, rfl, rfl⟩
  | pop reg => exact ⟨0x46#8, _, reg, 0#8, rfl, rfl⟩
  | call reg => exact ⟨0x50#8, _, reg, 0#8, rfl, rfl⟩
  | ret => exact ⟨0x11#8, _, 0#8, 0#8, rfl, rfl⟩

/-- As many operand bytes are encoded as the Decoder counts (R36). -/
theorem length_take_operandCount {ir : Byte} {d : Decoded} (opa opb : Byte)
    (h : decoder ir = some d) : ([opa, opb].take d.operandCount).length = d.operandCount := by
  simpa using decoder_operandCount_le ir d h

/-- The first bytes of a list, at most two, read out one by one as `decode` reads them. -/
theorem take_getD_pair {n : Nat} {tail : List Byte} (hn : n ≤ 2) (hlen : n ≤ tail.length) :
    [tail.getD 0 0#8, tail.getD 1 0#8].take n = tail.take n := by
  refine List.ext_getElem (by simp [hn, hlen]) fun k hk _ => ?_
  have hkn : k < n ∧ k < 2 := by simpa using hk
  obtain rfl | rfl : k = 0 ∨ k = 1 := by omega
  · simp [List.getD_eq_getElem?_getD, List.getElem?_eq_getElem (by omega : 0 < tail.length)]
  · simp [List.getD_eq_getElem?_getD, List.getElem?_eq_getElem (by omega : 1 < tail.length)]

/-- A list that begins with an invalid opcode byte is refused for that byte (R40). -/
theorem decode_of_invalid {ir : Byte} (h : decoder ir = none) (tail : List Byte) :
    decode (ir :: tail) = .error (.invalidOpcode ir) := by
  simp only [decode, h]

/-- A valid opcode byte is decoded with the bytes after it, if these are enough (R36, R41). -/
theorem decode_of_decoder {ir : Byte} {d : Decoded} (h : decoder ir = some d) (tail : List Byte) :
    decode (ir :: tail) =
      if tail.length < d.operandCount then .error .truncated
      else .ok (assemble d.tag (tail.getD 0 0#8) (tail.getD 1 0#8), tail.drop d.operandCount) := by
  simp only [decode, h]

/-- A valid opcode byte followed by its operand bytes decodes to what is assembled from these, and what
follows them is left over (R34, R36, R41). -/
theorem decode_operands {ir : Byte} {d : Decoded} (h : decoder ir = some d) (opa opb : Byte)
    (rest : List Byte) :
    decode (ir :: ([opa, opb].take d.operandCount ++ rest)) =
      .ok (assemble d.tag opa opb, rest) := by
  have hcount : d.operandCount ≤ 2 := decoder_operandCount_le ir d h
  have hlen := length_take_operandCount opa opb h
  have henough : d.operandCount ≤ ([opa, opb].take d.operandCount ++ rest).length := by
    rw [List.length_append]
    omega
  have hread := (take_getD_pair hcount henough).trans (List.take_left' hlen)
  rw [decode_of_decoder h, if_neg (by omega), List.drop_left' hlen,
    assemble_eq_of_take_eq h hread]

/-- All that a successful decode can be: the bytes are a valid opcode byte, its operand bytes and what is
left over. -/
theorem decode_eq_ok {bytes rest : List Byte} {i : Instr} (h : decode bytes = .ok (i, rest)) :
    ∃ ir d opa opb, decoder ir = some d ∧ i = assemble d.tag opa opb ∧
      bytes = ir :: ([opa, opb].take d.operandCount ++ rest) := by
  cases bytes with
  | nil => cases h
  | cons ir tail =>
    cases hd : decoder ir with
    | none => cases (decode_of_invalid hd tail).symm.trans h
    | some d =>
      rw [decode_of_decoder hd] at h
      split at h
      · cases h
      · rename_i hlen
        cases h
        refine ⟨ir, d, tail.getD 0 0#8, tail.getD 1 0#8, hd, rfl, ?_⟩
        rw [take_getD_pair (decoder_operandCount_le ir d hd) (by omega), List.take_append_drop]

/-- An instruction's encoding decodes to it, whatever follows (R34 to R38). -/
theorem decode_encode_append (i : Instr) (rest : List Byte) :
    decode (encode i ++ rest) = .ok (i, rest) := by
  obtain ⟨ir, d, opa, opb, hd, rfl⟩ := exists_eq_assemble i
  rw [encode_assemble opa opb hd]
  exact decode_operands hd opa opb rest

end Sys2Proof
end

section
/-! PROOF. The statements of 30_encoding.md. -/

namespace Sys2Proof.Machine

/-- Settles O12: bytes that decode are an opcode byte with its operand bytes, which is what the encoder
makes of the assembled instruction. -/
theorem decodeAndEncodeAgree : Obligations.DecodeAndEncodeAgree := by
  intro bytes rest i
  constructor
  · intro h
    obtain ⟨ir, d, opa, opb, hd, rfl, rfl⟩ := decode_eq_ok h
    rw [encode_assemble opa opb hd, List.cons_append]
  · rintro rfl
    exact decode_encode_append i rest

/-- Settles O11: the Decoder's count stands in bits 7:6, and a successful decode takes that many bytes
after the opcode byte. -/
theorem lengthIsInTheTopBits : Obligations.LengthIsInTheTopBits := by
  refine ⟨fun ir d h => ?_, fun ir tail rest i h => ?_⟩
  · have hcount := decoder_operandCount_eq h
    exact ⟨hcount, hcount ▸ decoder_operandCount_le ir d h⟩
  · obtain ⟨ir', d, opa, opb, hd, -, hbytes⟩ := decode_eq_ok h
    obtain ⟨rfl, rfl⟩ := List.cons.inj hbytes
    rw [List.length_append, length_take_operandCount opa opb hd, decoder_operandCount_eq hd]

/-- Settles O10: each row is its instruction's encoding, and a byte outside the closed set fails in the
Decoder. -/
theorem opcodeWordsDecode : Obligations.OpcodeWordsDecode := by
  refine ⟨decode_encode_append .halt [],
    fun a b => decode_encode_append (.loadImmediate a b) [],
    fun a => decode_encode_append (.printRegister a) [],
    fun a b => decode_encode_append (.mul a b) [],
    fun a b => decode_encode_append (.add a b) [],
    fun a => decode_encode_append (.push a) [],
    fun a => decode_encode_append (.pop a) [],
    fun a => decode_encode_append (.call a) [],
    decode_encode_append .ret [], fun ir rest hir => ?_⟩
  have hvalid : validOpcodes ⊆
      [0x01#8, 0x82#8, 0x47#8, 0xA2#8, 0xA0#8, 0x45#8, 0x46#8, 0x50#8, 0x11#8] := by decide
  exact decode_of_invalid (decoder_eq_none_of_not_mem fun h => hir (hvalid h)) rest

/-- Settles O13: only the counted operand bytes are interpreted. -/
theorem discardedBytesAreNotInterpreted : Obligations.DiscardedBytesAreNotInterpreted := by
  intro ir opa opb opa' opb' d hd
  simp only [decodeFetched_of_decoder ir _ _ d hd]
  refine ⟨fun hone => ?_, fun hzero => ?_⟩
  · exact congrArg some (assemble_eq_of_take_eq hd (by rw [hone]; rfl))
  · exact congrArg some (assemble_eq_of_take_eq hd (by rw [hzero]; rfl))

/-- An advance of PC that is computed on naturals is the addition of the byte (R14, R50). -/
theorem ofNat_toNat_add (b : Byte) (n : Nat) :
    BitVec.ofNat 8 (b.toNat + n) = b + BitVec.ofNat 8 n := by
  simp [BitVec.ofNat_add]

/-- LOAD_IMMEDIATE of a register with room for the advance (R57). -/
theorem exec_loadImmediate_ok {reg : Byte} {r : RegIx} {s : State} (value : Byte)
    (hr : r.val = reg.toNat) (hp : s.pc.toNat + 3 ≤ 255) :
    exec (.loadImmediate reg value) s =
      .next ((s.writeReg r value.toNat).setPc (s.pc + 3#8)) := by
  obtain ⟨r', hr', -, e⟩ | ⟨hbad, -⟩ | ⟨-, hover, -⟩ := execLoadImmediate_spec reg value s
  · obtain rfl : r' = r := Fin.ext (hr'.trans hr.symm)
    rw [← ofNat_toNat_add s.pc 3]
    exact e
  all_goals omega

/-- Settles O32: the operand byte is assembled whole and written as it stands. -/
theorem loadImmediateCompletes : Obligations.LoadImmediateCompletes := by
  intro reg value r hr
  refine ⟨rfl, fun s hp => ⟨_, exec_loadImmediate_ok value hr (by omega), ?_, ?_⟩⟩
  · rw [reg_setPc, reg_writeReg_same, BitVec.ofNat_toNat, BitVec.setWidth_eq]
  · simp [State.setPc, State.writeReg]

end Sys2Proof.Machine
end

section
/-! PROOF. The ends of a cycle: every instruction and every step answers a state, what a committed
instruction does to `STATUS` and to PC, and which bytes at PC make the step run an instruction. -/

namespace Sys2Proof.Machine

/-- Every instruction answers a next state, since each handler ends in `complete`. -/
theorem exec_answers_next (i : Instr) (s : State) : ∃ t, exec i s = .next t := by
  cases i
  all_goals exact complete_next s _

/-- Every step answers a next state. -/
theorem step_answers_next (s : State) : ∃ t, step s = .next t := by
  obtain ⟨-, e⟩ | ⟨-, -, e⟩ | ⟨-, -, -, e⟩ | ⟨d, -, -, -, e⟩ := step_spec s
  · exact ⟨_, e⟩
  · exact ⟨_, e⟩
  · exact ⟨_, e⟩
  · rw [e]
    exact exec_answers_next _ s

/-- `STATUS` after a committed instruction: HALT halts, every other instruction keeps it (R52). -/
theorem commits_status {i : Instr} {s t : State} (h : Commits i s t) :
    t.status = if i = .halt then .halted else s.status := by
  cases i with
  | halt => obtain ⟨-, rfl⟩ := h; rfl
  | loadImmediate reg value => obtain ⟨r, -, -, rfl⟩ := h; rfl
  | printRegister reg => obtain ⟨r, -, -, rfl⟩ := h; rfl
  | mul regA regB => obtain ⟨a, b, -, -, -, rfl⟩ := h; rfl
  | add regA regB => obtain ⟨a, b, -, -, -, rfl⟩ := h; rfl
  | push reg => obtain ⟨r, -, -, -, rfl⟩ := h; rfl
  | pop reg => obtain ⟨r, -, -, -, rfl⟩ := h; rfl
  | call reg => obtain ⟨r, -, -, rfl⟩ := h; rfl
  | ret => obtain ⟨-, rfl⟩ := h; rfl

/-- An instruction that commits on a running machine does not leave it faulted. -/
theorem commits_not_faulted {i : Instr} {s t : State} (h : Commits i s t)
    (hs : s.status = .running) : t.status ≠ .faulted := by
  rw [commits_status h, hs]
  split <;> decide

/-- A committed instruction that leaves a running machine halted is HALT. -/
theorem eq_halt_of_commits_halted {i : Instr} {s t : State} (h : Commits i s t)
    (hs : s.status = .running) (hhalted : t.status = .halted) : i = .halt := by
  rw [commits_status h, hs] at hhalted
  split at hhalted
  · assumption
  · cases hhalted

/-- What is assembled is HALT only for HALT's opcode byte (R37). -/
theorem assemble_eq_halt_iff {ir : Byte} {d : Decoded} (opa opb : Byte) (h : decoder ir = some d) :
    assemble d.tag opa opb = .halt ↔ ir = 0x01#8 := by
  constructor
  · intro hi
    have hhead := encode_assemble_head opa opb h
    rw [hi] at hhead
    exact (Option.some.inj hhead).symm
  · rintro rfl
    obtain rfl : (⟨.halt, 0, false, false⟩ : Decoded) = d := Option.some.inj h
    rfl

/-- A PC set to a number within memory reads as that number. -/
theorem setPc_ofNat_toNat (s : State) {n : Nat} (h : n ≤ 255) :
    (s.setPc (BitVec.ofNat 8 n)).pc.toNat = n := by
  rw [setPc_pc, BitVec.toNat_ofNat]
  omega

/-- A committed instruction that does not set PC advances it past its own encoding (R50, R52). -/
theorem commits_advance {i : Instr} {s t : State} (h : Commits i s t) (hcall : i.tag ≠ .call)
    (hret : i.tag ≠ .ret) : t.pc.toNat = s.pc.toNat + (encode i).length := by
  cases i with
  | halt => obtain ⟨hp, rfl⟩ := h; exact setPc_ofNat_toNat s hp
  | loadImmediate reg value => obtain ⟨r, -, hp, rfl⟩ := h; exact setPc_ofNat_toNat _ hp
  | printRegister reg => obtain ⟨r, -, hp, rfl⟩ := h; exact setPc_ofNat_toNat _ hp
  | mul regA regB => obtain ⟨a, b, -, -, hp, rfl⟩ := h; exact setPc_ofNat_toNat _ hp
  | add regA regB => obtain ⟨a, b, -, -, hp, rfl⟩ := h; exact setPc_ofNat_toNat _ hp
  | push reg => obtain ⟨r, -, -, hp, rfl⟩ := h; exact setPc_ofNat_toNat _ hp
  | pop reg => obtain ⟨r, -, -, hp, rfl⟩ := h; exact setPc_ofNat_toNat _ hp
  | call reg => exact absurd rfl hcall
  | ret => exact absurd rfl hret

/-- CALL of a register other than 7 leaves PC at that register's value (R68). -/
theorem commits_call_pc {r : RegIx} {s t : State} (h : Commits (.call (BitVec.ofNat 8 r.val)) s t)
    (hr7 : r ≠ 7) : t.pc = s.reg r := by
  obtain ⟨r', hr', -, rfl⟩ := h
  have hval : (BitVec.ofNat 8 r.val).toNat = r.val := by
    rw [BitVec.toNat_ofNat]
    omega
  obtain rfl : r' = r := Fin.ext (hr'.trans hval)
  exact reg_writeReg_of_ne s spIx r' _ hr7

/-- The handlers that set PC are CALL's and RETURN's (R38, R50). -/
theorem decoder_setsPc_iff {ir : Byte} {d : Decoded} (h : decoder ir = some d) :
    d.setsPc = true ↔ d.tag = .call ∨ d.tag = .ret := by
  have rows : ∀ b : Byte, ∀ e ∈ decoder b, e.setsPc = true ↔ e.tag = .call ∨ e.tag = .ret := by
    decide
  exact rows ir d h

/-- An assembled instruction has the tag it is assembled for. -/
theorem tag_assemble (tag : Tag) (opa opb : Byte) : (assemble tag opa opb).tag = tag := by
  cases tag
  all_goals rfl

/-- An instruction is assembled from its own opcode byte, known from its encoding. -/
theorem eq_assemble_of_encode {i : Instr} {ir : Byte} {operands : List Byte} {d : Decoded}
    (hi : encode i = ir :: operands) (hd : decoder ir = some d) :
    ∃ opa opb, i = assemble d.tag opa opb := by
  obtain ⟨ir', d', opa, opb, hd', rfl⟩ := exists_eq_assemble i
  rw [encode_assemble opa opb hd'] at hi
  obtain ⟨rfl, -⟩ := List.cons.inj hi
  cases hd.symm.trans hd'
  exact ⟨opa, opb, rfl⟩

/-- The Decoder's tag for an instruction's opcode byte is the instruction's (R38). -/
theorem tag_of_encode {i : Instr} {ir : Byte} {operands : List Byte} {d : Decoded}
    (hi : encode i = ir :: operands) (hd : decoder ir = some d) : i.tag = d.tag := by
  obtain ⟨opa, opb, rfl⟩ := eq_assemble_of_encode hi hd
  exact tag_assemble d.tag opa opb

/-- An encoding is one byte longer than the Decoder's count (R36). -/
theorem length_encode {i : Instr} {ir : Byte} {operands : List Byte} {d : Decoded}
    (hi : encode i = ir :: operands) (hd : decoder ir = some d) :
    (encode i).length = 1 + d.operandCount := by
  obtain ⟨opa, opb, rfl⟩ := eq_assemble_of_encode hi hd
  rw [encode_assemble opa opb hd, List.length_cons, length_take_operandCount opa opb hd,
    Nat.add_comm]

/-- The operand check as a bound on each register operand (R12, R42). -/
theorem wellFormed_iff {i : Instr} :
    i.wellFormed = true ↔ ∀ b ∈ i.registerOperands, b.toNat ≤ 7 := by
  simp only [Instr.wellFormed, List.all_eq_true, namesRegister, decide_eq_true_eq]

/-- A running machine executes the instruction whose encoding stands at PC (R34, R41, R47). -/
theorem step_eq_exec_of_encode {s : State} {i : Instr} (hs : s.status = .running)
    (hp : s.pc.toNat ≤ 253)
    (h : ∀ (k : Nat) (hk : k < (encode i).length), s.byteAt (s.pc.toNat + k) = (encode i)[k]) :
    step s = exec i s := by
  obtain ⟨ir, d, opa, opb, hd, rfl⟩ := exists_eq_assemble i
  have hlen := length_take_operandCount opa opb hd
  simp only [encode_assemble opa opb hd, List.length_cons, hlen] at h
  have hop : s.byteAt s.pc.toNat = ir := h 0 (by omega)
  have hoperands : [s.byteAt (s.pc.toNat + 1), s.byteAt (s.pc.toNat + 2)].take d.operandCount =
      [opa, opb].take d.operandCount := by
    refine List.ext_getElem (by simp) fun k hk hk' => ?_
    have hkn : k < d.operandCount ∧ k < 2 := by simpa using hk
    have hbyte := h (k + 1) (by omega)
    rw [List.getElem_cons_succ] at hbyte
    rw [← hbyte, List.getElem_take]
    obtain rfl | rfl : k = 0 ∨ k = 1 := by omega
    · rfl
    · rfl
  rw [step_eq_exec hs hp (hop ▸ hd), assemble_eq_of_take_eq hd hoperands]

/-- Bytes placed from `a` up read back, each at its own address. -/
theorem peek_placeBytes {m : Memory} {a k : Nat} {bs : List Byte} (hm : m.wf = true)
    (hk : k < bs.length) (ha : a + k ≤ 255) : (m.placeBytes a bs).peek (a + k) = bs[k] := by
  induction bs generalizing m a k with
  | nil => cases hk
  | cons b bs ih =>
    rw [Memory.placeBytes, if_neg (by omega)]
    cases k with
    | zero =>
      rw [Nat.add_zero, peek_placeBytes_below _ _ _ bs (by omega)]
      exact peek_poke_same m a b hm
    | succ k =>
      have h := ih (wf_poke m a b hm (by omega)) (Nat.lt_of_succ_lt_succ hk)
        (by omega : a + 1 + k ≤ 255)
      rwa [show a + 1 + k = a + (k + 1) by omega] at h

/-- All that a decoded table word says: its bytes begin with the instruction's encoding (R44). -/
theorem tableBytes_of_decodeTableWord {nbits w : Nat} {i : Instr}
    (h : decodeTableWord nbits w = some i) : ∃ rest, tableBytes nbits w = encode i ++ rest := by
  unfold decodeTableWord at h
  split at h
  · rename_i j rest hj
    cases h
    exact ⟨rest, (decodeAndEncodeAgree _ _ _).mp hj⟩
  · cases h

/-- A step that halts a running machine is a HALT's, and PC has advanced past it (R52, D15). -/
theorem halt_of_step_halted {s t : State} (hs : s.status = .running) (h : step s = .next t)
    (hhalted : t.status = .halted) :
    s.pc.toNat ≤ 253 ∧ s.byteAt s.pc.toNat = 0x01#8 ∧ t.pc.toNat = s.pc.toNat + 1 := by
  obtain ⟨hstop, -⟩ | ⟨-, k, rfl⟩ | ⟨d, -, hp, hd, hc⟩ := step_cases h
  · exact absurd hs hstop
  · cases hhalted
  · have hi := eq_halt_of_commits_halted hc hs hhalted
    rw [hi] at hc
    exact ⟨hp, (assemble_eq_halt_iff _ _ hd).mp hi, commits_advance hc (by decide) (by decide)⟩

/-- A running machine that fetches HALT's byte is halted by the step (R56). -/
theorem step_halted_of_halt {s t : State} (hs : s.status = .running) (h : step s = .next t)
    (hp : s.pc.toNat ≤ 253) (hop : s.byteAt s.pc.toNat = 0x01#8) : t.status = .halted := by
  have hd : decoder (s.byteAt s.pc.toNat) = some ⟨.halt, 0, false, false⟩ := by rw [hop]; rfl
  rw [next_unique h ((step_eq_exec hs hp hd).trans (exec_halt_ok (by omega)))]

end Sys2Proof.Machine
end

section
/-! PROOF. The whole cycle of R55 on each opcode byte: its numbered registers are the state's, its
errors in R81's order, and its writes the ones the meaning commits. -/

namespace Sys2Proof.Machine

/-- A register's value by its number is the register's. -/
theorem regNat_val (s : State) (r : RegIx) : s.regNat r.val = (s.reg r).toNat :=
  dif_pos r.isLt

/-- A register write by number is the write of R11. -/
theorem withReg_val (s : State) (r : RegIx) (v : Nat) : s.withReg r.val v = s.writeReg r v :=
  dif_pos r.isLt

/-- A register write reduces its value, so a reduced one may be written (R11). -/
theorem writeReg_mod (s : State) (r : RegIx) (v : Nat) :
    s.writeReg r (v % 256) = s.writeReg r v := by
  have hv : BitVec.ofNat 8 (v % 256) = BitVec.ofNat 8 v := BitVec.eq_of_toNat_eq (by simp)
  simp only [State.writeReg, hv]

/-- `x[7]` is the stack pointer (R10). -/
theorem reg_seven (s : State) : s.reg 7 = s.sp := rfl

@[simp] theorem regNat_seven (s : State) : s.regNat 7 = s.sp.toNat := rfl
@[simp] theorem withReg_seven (s : State) (v : Nat) : s.withReg 7 v = s.writeReg spIx v := rfl

/-- An outcome is the whole cycle's if it takes the error that is reported. -/
theorem eq_wholeCycle_of_error {o : Host.Outcome State Fault Refusal} {s : State} {k : ErrorKind}
    (ho : o = .next (raise k s)) (h : reportedError s = some k) : o = .next (wholeCycle s) := by
  simp only [wholeCycle, h, ho]

/-- An outcome is the whole cycle's if no error is reported and it has made the writes. -/
theorem eq_wholeCycle_of_writes {o : Host.Outcome State Fault Refusal} {s t : State}
    (ho : o = .next t) (h : reportedError s = none) (hw : writesOf s = t) :
    o = .next (wholeCycle s) := by
  simp only [wholeCycle, h, hw, ho]

/-- A cycle that cannot fetch reports `OutOfBounds`, whatever else applies (R47, R81). -/
theorem reportedError_fetch {s : State} (hp : 254 ≤ s.pc.toNat) :
    reportedError s = some .outOfBounds :=
  if_pos (by omega)

/-- A byte the Decoder refuses is no opcode byte (R40). -/
theorem not_mem_validOpcodes {ir : Byte} (h : decoder ir = none) : ir ∉ validOpcodes := by
  have rows : ∀ b ∈ validOpcodes, decoder b ≠ none := by decide
  exact fun hmem => rows ir hmem h

/-- A byte the Decoder refuses is reported before any operand is looked at (R48, R81). -/
theorem reportedError_decode {s : State} (hp : s.pc.toNat ≤ 253)
    (hd : decoder (s.byteAt s.pc.toNat) = none) : reportedError s = some .invalidOpcode :=
  (if_neg (by omega)).trans (if_pos (not_mem_validOpcodes hd))

section
variable {s : State} (hp : s.pc.toNat ≤ 253)
include hp

/-- The last of the three fetched bytes is inside memory (R47). -/
theorem fetch_fits : ¬ s.pc.toNat + 2 > 255 := by
  omega

/-- HALT reports nothing (R56). -/
theorem reportedError_halt (hop : s.byteAt s.pc.toNat = 0x01#8) : reportedError s = none := by
  simp [reportedError, fetch_fits hp, hop, validOpcodes]

/-- LOAD_IMMEDIATE: the register, then the advance (R57, R81). -/
theorem reportedError_loadImmediate (hop : s.byteAt s.pc.toNat = 0x82#8) :
    reportedError s =
      if 7 < (s.byteAt (s.pc.toNat + 1)).toNat then some .invalidRegister
      else if 255 < s.pc.toNat + 3 then some .outOfBounds else none := by
  simp [reportedError, fetch_fits hp, hop, validOpcodes]

/-- PRINT_REGISTER: the register (R58, R81). -/
theorem reportedError_printRegister (hop : s.byteAt s.pc.toNat = 0x47#8) :
    reportedError s =
      if 7 < (s.byteAt (s.pc.toNat + 1)).toNat then some .invalidRegister else none := by
  simp [reportedError, fetch_fits hp, hop, validOpcodes]

/-- MUL and ADD: either register, then the advance (R62, R63, R81). -/
theorem reportedError_mul_or_add
    (hop : s.byteAt s.pc.toNat = 0xA2#8 ∨ s.byteAt s.pc.toNat = 0xA0#8) :
    reportedError s =
      if 7 < (s.byteAt (s.pc.toNat + 1)).toNat ∨ 7 < (s.byteAt (s.pc.toNat + 2)).toNat then
        some .invalidRegister
      else if 255 < s.pc.toNat + 3 then some .outOfBounds else none := by
  rw [ite_or]
  obtain hop | hop := hop
  · simp [reportedError, fetch_fits hp, hop, validOpcodes]
  · simp [reportedError, fetch_fits hp, hop, validOpcodes]

/-- PUSH and CALL: the register, then the stack (R65, R68, R81). -/
theorem reportedError_push_or_call
    (hop : s.byteAt s.pc.toNat = 0x45#8 ∨ s.byteAt s.pc.toNat = 0x50#8) :
    reportedError s =
      if 7 < (s.byteAt (s.pc.toNat + 1)).toNat then some .invalidRegister
      else if s.sp.toNat = 0 then some .stackOverflow else none := by
  obtain hop | hop := hop
  · simp [reportedError, fetch_fits hp, hop, validOpcodes, reg_seven]
  · simp [reportedError, fetch_fits hp, hop, validOpcodes, reg_seven]

/-- POP: the register, then the stack (R66, R81). -/
theorem reportedError_pop (hop : s.byteAt s.pc.toNat = 0x46#8) :
    reportedError s =
      if 7 < (s.byteAt (s.pc.toNat + 1)).toNat then some .invalidRegister
      else if s.config.stackTop.toNat ≤ s.sp.toNat then some .stackUnderflow else none := by
  simp [reportedError, fetch_fits hp, hop, validOpcodes, reg_seven]

/-- RETURN: the stack (R69, R81). -/
theorem reportedError_ret (hop : s.byteAt s.pc.toNat = 0x11#8) :
    reportedError s =
      if s.config.stackTop.toNat ≤ s.sp.toNat then some .stackUnderflow else none := by
  simp [reportedError, fetch_fits hp, hop, validOpcodes, reg_seven]

/-- HALT is the whole cycle at its opcode byte (R56). -/
theorem execHalt_eq_wholeCycle (hop : s.byteAt s.pc.toNat = 0x01#8) :
    execHalt s = .next (wholeCycle s) := by
  obtain ⟨-, e⟩ | ⟨hover, -⟩ := execHalt_spec s
  · refine eq_wholeCycle_of_writes e (reportedError_halt hp hop) ?_
    simp only [writesOf, hop]
    rfl
  · omega

/-- LOAD_IMMEDIATE is the whole cycle at its opcode byte (R57). -/
theorem execLoadImmediate_eq_wholeCycle (hop : s.byteAt s.pc.toNat = 0x82#8) :
    execLoadImmediate (s.byteAt (s.pc.toNat + 1)) (s.byteAt (s.pc.toNat + 2)) s =
      .next (wholeCycle s) := by
  have herr := reportedError_loadImmediate hp hop
  obtain ⟨r, hr, hfits, e⟩ | ⟨hbad, e⟩ | ⟨hreg, hover, e⟩ := execLoadImmediate_spec
    (s.byteAt (s.pc.toNat + 1)) (s.byteAt (s.pc.toNat + 2)) s
  · refine eq_wholeCycle_of_writes e ?_ ?_
    · rw [herr, if_neg (by omega), if_neg (by omega)]
    · simp only [writesOf, hop, ← hr, withReg_val]
      rfl
  · exact eq_wholeCycle_of_error e (by rw [herr, if_pos hbad])
  · exact eq_wholeCycle_of_error e (by rw [herr, if_neg (by omega), if_pos hover])

/-- PRINT_REGISTER is the whole cycle at its opcode byte (R58). -/
theorem execPrintRegister_eq_wholeCycle (hop : s.byteAt s.pc.toNat = 0x47#8) :
    execPrintRegister (s.byteAt (s.pc.toNat + 1)) s = .next (wholeCycle s) := by
  have herr := reportedError_printRegister hp hop
  obtain ⟨r, hr, hfits, e⟩ | ⟨hbad, e⟩ | ⟨-, hover, -⟩ := execPrintRegister_spec
    (s.byteAt (s.pc.toNat + 1)) s
  · refine eq_wholeCycle_of_writes e ?_ ?_
    · rw [herr, if_neg (by omega)]
    · simp only [writesOf, hop, ← hr, regNat_val, BitVec.ofNat_toNat, BitVec.setWidth_eq]
      rfl
  · exact eq_wholeCycle_of_error e (by rw [herr, if_pos hbad])
  · omega

/-- MUL and ADD share their checks: an outcome with the cases of their `_spec` lemmas is the whole
cycle if what it commits are the writes (R62, R63). -/
theorem eq_wholeCycle_of_mul_or_add {o : Host.Outcome State Fault Refusal}
    {result : RegIx → RegIx → State}
    (hop : s.byteAt s.pc.toNat = 0xA2#8 ∨ s.byteAt s.pc.toNat = 0xA0#8)
    (hwrites : ∀ a b : RegIx, a.val = (s.byteAt (s.pc.toNat + 1)).toNat →
      b.val = (s.byteAt (s.pc.toNat + 2)).toNat → writesOf s = result a b)
    (hspec : (∃ a b : RegIx, a.val = (s.byteAt (s.pc.toNat + 1)).toNat ∧
        b.val = (s.byteAt (s.pc.toNat + 2)).toNat ∧ s.pc.toNat + 3 ≤ 255 ∧
        o = .next (result a b)) ∨
      ((7 < (s.byteAt (s.pc.toNat + 1)).toNat ∨ 7 < (s.byteAt (s.pc.toNat + 2)).toNat) ∧
        o = .next (raise .invalidRegister s)) ∨
      ((s.byteAt (s.pc.toNat + 1)).toNat ≤ 7 ∧ (s.byteAt (s.pc.toNat + 2)).toNat ≤ 7 ∧
        255 < s.pc.toNat + 3 ∧ o = .next (raise .outOfBounds s))) :
    o = .next (wholeCycle s) := by
  have herr := reportedError_mul_or_add hp hop
  obtain ⟨a, b, ha, hb, hfits, e⟩ | ⟨hbad, e⟩ | ⟨hregA, hregB, hover, e⟩ := hspec
  · refine eq_wholeCycle_of_writes e ?_ (hwrites a b ha hb)
    rw [herr, if_neg (by omega), if_neg (by omega)]
  · exact eq_wholeCycle_of_error e (by rw [herr, if_pos hbad])
  · exact eq_wholeCycle_of_error e (by rw [herr, if_neg (by omega), if_pos hover])

/-- MUL is the whole cycle at its opcode byte (R62). -/
theorem execMul_eq_wholeCycle (hop : s.byteAt s.pc.toNat = 0xA2#8) :
    execMul (s.byteAt (s.pc.toNat + 1)) (s.byteAt (s.pc.toNat + 2)) s = .next (wholeCycle s) := by
  refine eq_wholeCycle_of_mul_or_add hp (.inl hop) (fun a b ha hb => ?_) (execMul_spec _ _ s)
  simp only [writesOf, hop, ← ha, ← hb, regNat_val, withReg_val, writeReg_mod]
  rfl

/-- ADD is the whole cycle at its opcode byte (R63). -/
theorem execAdd_eq_wholeCycle (hop : s.byteAt s.pc.toNat = 0xA0#8) :
    execAdd (s.byteAt (s.pc.toNat + 1)) (s.byteAt (s.pc.toNat + 2)) s = .next (wholeCycle s) := by
  refine eq_wholeCycle_of_mul_or_add hp (.inr hop) (fun a b ha hb => ?_) (execAdd_spec _ _ s)
  simp only [writesOf, hop, ← ha, ← hb, regNat_val, withReg_val, writeReg_mod]
  rfl

/-- PUSH is the whole cycle at its opcode byte (R65). -/
theorem execPush_eq_wholeCycle (hop : s.byteAt s.pc.toNat = 0x45#8) :
    execPush (s.byteAt (s.pc.toNat + 1)) s = .next (wholeCycle s) := by
  have herr := reportedError_push_or_call hp (.inl hop)
  obtain ⟨r, hr, hsp, hfits, e⟩ | ⟨hbad, e⟩ | ⟨hreg, hzero, e⟩ | ⟨-, -, hover, -⟩ := execPush_spec
    (s.byteAt (s.pc.toNat + 1)) s
  · refine eq_wholeCycle_of_writes e ?_ ?_
    · rw [herr, if_neg (by omega), if_neg (by omega)]
    · simp only [writesOf, hop, ← hr, regNat_val, regNat_seven, withReg_seven, BitVec.ofNat_toNat,
        BitVec.setWidth_eq]
      rfl
  · exact eq_wholeCycle_of_error e (by rw [herr, if_pos hbad])
  · exact eq_wholeCycle_of_error e (by rw [herr, if_neg (by omega), if_pos hzero])
  · omega

/-- POP is the whole cycle at its opcode byte (R66). -/
theorem execPop_eq_wholeCycle (hop : s.byteAt s.pc.toNat = 0x46#8) :
    execPop (s.byteAt (s.pc.toNat + 1)) s = .next (wholeCycle s) := by
  have herr := reportedError_pop hp hop
  obtain ⟨r, hr, hsp, hfits, e⟩ | ⟨hbad, e⟩ | ⟨hreg, hempty, e⟩ | ⟨-, -, hover, -⟩ := execPop_spec
    (s.byteAt (s.pc.toNat + 1)) s
  · refine eq_wholeCycle_of_writes e ?_ ?_
    · rw [herr, if_neg (by omega), if_neg (by omega)]
    · simp only [writesOf, hop, ← hr, withReg_val, regNat_seven, withReg_seven]
      rfl
  · exact eq_wholeCycle_of_error e (by rw [herr, if_pos hbad])
  · exact eq_wholeCycle_of_error e (by rw [herr, if_neg (by omega), if_pos hempty])
  · omega

/-- CALL is the whole cycle at its opcode byte (R68). -/
theorem execCall_eq_wholeCycle (hop : s.byteAt s.pc.toNat = 0x50#8) :
    execCall (s.byteAt (s.pc.toNat + 1)) s = .next (wholeCycle s) := by
  have herr := reportedError_push_or_call hp (.inr hop)
  obtain ⟨r, hr, hsp, e⟩ | ⟨hbad, e⟩ | ⟨hreg, hzero, e⟩ := execCall_spec
    (s.byteAt (s.pc.toNat + 1)) s
  · refine eq_wholeCycle_of_writes e ?_ ?_
    · rw [herr, if_neg (by omega), if_neg (by omega)]
    · simp only [writesOf, hop, ← hr, regNat_val, regNat_seven, withReg_seven, BitVec.ofNat_toNat,
        BitVec.setWidth_eq]
      rfl
  · exact eq_wholeCycle_of_error e (by rw [herr, if_pos hbad])
  · exact eq_wholeCycle_of_error e (by rw [herr, if_neg (by omega), if_pos hzero])

/-- RETURN is the whole cycle at its opcode byte (R69). -/
theorem execRet_eq_wholeCycle (hop : s.byteAt s.pc.toNat = 0x11#8) :
    execRet s = .next (wholeCycle s) := by
  have herr := reportedError_ret hp hop
  obtain ⟨hsp, e⟩ | ⟨hempty, e⟩ := execRet_spec s
  · refine eq_wholeCycle_of_writes e ?_ ?_
    · rw [herr, if_neg (by omega)]
    · simp only [writesOf, hop, regNat_seven, withReg_seven, BitVec.ofNat_toNat,
        BitVec.setWidth_eq]
      rfl
  · exact eq_wholeCycle_of_error e (by rw [herr, if_pos hempty])

/-- The instruction at PC is the whole cycle, whichever row of the table its opcode byte is. -/
theorem exec_eq_wholeCycle {d : Decoded} (hd : decoder (s.byteAt s.pc.toNat) = some d) :
    exec (assemble d.tag (s.byteAt (s.pc.toNat + 1)) (s.byteAt (s.pc.toNat + 2))) s =
      .next (wholeCycle s) := by
  obtain ⟨hop, e⟩ | ⟨hop, e⟩ | ⟨hop, e⟩ | ⟨hop, e⟩ | ⟨hop, e⟩ | ⟨hop, e⟩ | ⟨hop, e⟩ | ⟨hop, e⟩ |
    ⟨hop, e⟩ | ⟨-, e⟩ := decoder_cases (s.byteAt s.pc.toNat)
  all_goals cases hd.symm.trans e
  · exact execHalt_eq_wholeCycle hp hop
  · exact execLoadImmediate_eq_wholeCycle hp hop
  · exact execPrintRegister_eq_wholeCycle hp hop
  · exact execMul_eq_wholeCycle hp hop
  · exact execAdd_eq_wholeCycle hp hop
  · exact execPush_eq_wholeCycle hp hop
  · exact execPop_eq_wholeCycle hp hop
  · exact execCall_eq_wholeCycle hp hop
  · exact execRet_eq_wholeCycle hp hop

end

end Sys2Proof.Machine
end

section
/-! PROOF. The statements of 40_execution_loop.md. -/

namespace Sys2Proof.Machine

/-- Settles O14: the fetched bytes decode to the instruction, or the encoding that stands at PC is
the opcode byte and the operand bytes it is assembled from. -/
theorem stepRunsTheDecodedInstruction : Obligations.StepRunsTheDecodedInstruction := by
  intro s i hs hp
  refine ⟨fun hi => ?_, step_eq_exec_of_encode hs hp⟩
  rw [step_running s hs, fetchDecode_inRange s hp, hi]

/-- Settles O15: the placed bytes read back at PC, and they begin with the encoding of what the word
decodes to. -/
theorem fetchWordRunsNext : Obligations.FetchWordRunsNext := by
  intro s nbits w i hs hp hm hi
  obtain ⟨rest, hbytes⟩ := tableBytes_of_decodeTableWord hi
  have hlen : (encode i ++ rest).length = 3 := by rw [← hbytes]; rfl
  rw [List.length_append] at hlen
  refine step_eq_exec_of_encode hs hp fun k hk => ?_
  have hread : (s.mem.placeBytes s.pc.toNat (encode i ++ rest)).peek (s.pc.toNat + k) =
      (encode i)[k] := by
    rw [peek_placeBytes hm (by rw [List.length_append]; omega) (by omega),
      List.getElem_append_left hk]
  rwa [← hbytes] at hread

/-- Settles O16: the fetch fails before decode. -/
theorem fetchAtTheTopOfMemoryFaults : Obligations.FetchAtTheTopOfMemoryFaults := by
  intro s hs hp
  rw [step_running s hs, fetchDecode_outOfRange s hp]
  rfl

/-- Settles O4, by induction on the number of cycles: a stopped machine stays under both runners, and
a running one takes the same step. -/
theorem runIsTheRepetitionOfCycles : Obligations.RunIsTheRepetitionOfCycles := by
  intro n
  induction n with
  | zero => exact fun s => rfl
  | succ n ih =>
    intro s
    by_cases hs : s.status = .running
    · obtain ⟨t, ht⟩ := step_answers_next s
      rw [run_next n s t ht, runCycles_next n s t hs ht, ih t]
    · rw [core_run_stopped _ s hs, runCycles_stopped _ s hs]

/-- Settles O18: whatever commits does not fault, so a faulted end is the fatal error taken from the
state before. -/
theorem faultCommitsNothingElse : Obligations.FaultCommitsNothingElse := by
  refine ⟨fun s t hs h hfault => ?_, fun i s t hs h hfault => ?_⟩
  · obtain ⟨hstop, -⟩ | ⟨-, hraise⟩ | ⟨d, -, -, -, hc⟩ := step_cases h
    · exact absurd hs hstop
    · exact hraise
    · exact absurd hfault (commits_not_faulted hc hs)
  · obtain hc | hraise := exec_cases h
    · exact absurd hfault (commits_not_faulted hc hs)
    · exact hraise

/-- Settles O21, by the ends of a step: the fetch, the decode, or the instruction at PC. -/
theorem stepIsTheWholeCycle : Obligations.StepIsTheWholeCycle := by
  intro s hs
  obtain ⟨hstop, -⟩ | ⟨-, hp, e⟩ | ⟨-, hp, hd, e⟩ | ⟨d, -, hp, hd, e⟩ := step_spec s
  · exact absurd hs hstop
  · exact eq_wholeCycle_of_error e (reportedError_fetch hp)
  · exact eq_wholeCycle_of_error e (reportedError_decode hp hd)
  · exact e.trans (exec_eq_wholeCycle hp hd)

/-- Settles O29: of the ends of a cycle only a committed HALT leaves `STATUS` HALTED, and a HALT's
opcode byte at a fetchable PC leads nowhere else. -/
theorem haltedIsReachedByHaltAlone : Obligations.HaltedIsReachedByHaltAlone := by
  intro s t hs h
  refine ⟨⟨fun hhalted => ?_, fun ⟨hp, hop⟩ => step_halted_of_halt hs h hp hop⟩,
    fun hhalted => ?_⟩
  · obtain ⟨hp, hop, -⟩ := halt_of_step_halted hs h hhalted
    exact ⟨hp, hop⟩
  · obtain ⟨-, -, hpc⟩ := halt_of_step_halted hs h hhalted
    exact hpc

/-- Settles O30: PC after a committed instruction is past its encoding, which is one byte longer than
the Decoder's count; CALL and RETURN, and only they, set it instead. -/
theorem advanceFollowsTheDecoder : Obligations.AdvanceFollowsTheDecoder := by
  intro i ir operands d hi hd
  have htag : i.tag = d.tag := tag_of_encode hi hd
  refine ⟨htag ▸ decoder_setsPc_iff hd, fun s t h hfault => ?_⟩
  obtain hc | ⟨k, rfl⟩ := exec_cases h
  · refine ⟨fun hsets => ?_, fun r hr7 hcall => ?_, fun hret => ?_⟩
    · have hpc : ¬ (i.tag = .call ∨ i.tag = .ret) := by
        rw [htag, ← decoder_setsPc_iff hd, hsets]
        decide
      rw [commits_advance hc (fun e => hpc (.inl e)) (fun e => hpc (.inr e)),
        length_encode hi hd, Nat.add_assoc]
    · subst hcall
      exact commits_call_pc hc hr7
    · subst hret
      obtain ⟨-, rfl⟩ := hc
      rfl
  · exact absurd rfl hfault

/-- Settles O42: with register operands that pass the check, the advance is the one check of the
three meanings that fails. -/
theorem advancePastTheEndFaults : Obligations.AdvancePastTheEndFaults := by
  intro i s htag hwf hp
  have hregs := wellFormed_iff.mp hwf
  cases i with
  | loadImmediate reg value =>
    have hreg : reg.toNat ≤ 7 := by simpa [Instr.registerOperands] using hregs
    obtain ⟨r, -, hfits, -⟩ | ⟨hbad, -⟩ | ⟨-, -, e⟩ := execLoadImmediate_spec reg value s
    · omega
    · omega
    · exact e
  | mul regA regB =>
    obtain ⟨ha, hb⟩ : regA.toNat ≤ 7 ∧ regB.toNat ≤ 7 := by
      simpa [Instr.registerOperands] using hregs
    obtain ⟨a, b, -, -, hfits, -⟩ | ⟨hbad, -⟩ | ⟨-, -, -, e⟩ := execMul_spec regA regB s
    · omega
    · omega
    · exact e
  | add regA regB =>
    obtain ⟨ha, hb⟩ : regA.toNat ≤ 7 ∧ regB.toNat ≤ 7 := by
      simpa [Instr.registerOperands] using hregs
    obtain ⟨a, b, -, -, hfits, -⟩ | ⟨hbad, -⟩ | ⟨-, -, -, e⟩ := execAdd_spec regA regB s
    · omega
    · omega
    · exact e
  | _ => simp [Instr.tag] at htag

end Sys2Proof.Machine
end

section
/-! PROOF. HALT and PRINT_REGISTER where they complete, which is wherever they can be fetched: PC at
most 253 leaves room for an advance of one or two. -/

namespace Sys2Proof.Machine

/-- PRINT_REGISTER of a register with room for the advance (R58). -/
theorem exec_printRegister_ok {reg : Byte} {r : RegIx} {s : State} (hr : r.val = reg.toNat)
    (hp : s.pc.toNat + 2 ≤ 255) :
    exec (.printRegister reg) s = .next ((s.emit (s.reg r)).setPc (s.pc + 2#8)) := by
  obtain ⟨r', hr', -, e⟩ | ⟨hbad, -⟩ | ⟨-, hover, -⟩ := execPrintRegister_spec reg s
  · obtain rfl : r' = r := Fin.ext (hr'.trans hr.symm)
    rw [← ofNat_toNat_add s.pc 2]
    exact e
  all_goals omega

/-- Settles O31: at a PC that can be fetched the advance of one fits, so HALT meets no error. -/
theorem haltCompletes : Obligations.HaltCompletes :=
  fun s hp => exec_halt_ok (by omega)

/-- Settles O33: the register passes the check and the advance of two fits, so PRINT_REGISTER meets
no error. -/
theorem printRegisterCompletes : Obligations.PrintRegisterCompletes :=
  fun reg r s hr hp => exec_printRegister_ok hr (by omega)

end Sys2Proof.Machine
end

section
/-! PROOF. ADD and MUL (R59, R60, R62, R63): what they commit where they complete, and the shape of a
commit that the two share. -/

namespace Sys2Proof.Machine

/-- ADD of two registers with room for the advance (R63). -/
theorem exec_add_ok {regA regB : Byte} {a b : RegIx} {s : State} (ha : a.val = regA.toNat)
    (hb : b.val = regB.toNat) (hp : s.pc.toNat + 3 ≤ 255) :
    exec (.add regA regB) s =
      .next ((s.writeReg a ((s.reg a).toNat + (s.reg b).toNat)).setPc (s.pc + 3#8)) := by
  obtain ⟨a', b', ha', hb', -, e⟩ | ⟨hbad, -⟩ | ⟨-, -, hover, -⟩ := execAdd_spec regA regB s
  · obtain rfl : a' = a := Fin.ext (ha'.trans ha.symm)
    obtain rfl : b' = b := Fin.ext (hb'.trans hb.symm)
    rw [← ofNat_toNat_add s.pc 3]
    exact e
  all_goals omega

/-- MUL of two registers with room for the advance (R62). -/
theorem exec_mul_ok {regA regB : Byte} {a b : RegIx} {s : State} (ha : a.val = regA.toNat)
    (hb : b.val = regB.toNat) (hp : s.pc.toNat + 3 ≤ 255) :
    exec (.mul regA regB) s =
      .next ((s.writeReg a ((s.reg a).toNat * (s.reg b).toNat)).setPc (s.pc + 3#8)) := by
  obtain ⟨a', b', ha', hb', -, e⟩ | ⟨hbad, -⟩ | ⟨-, -, hover, -⟩ := execMul_spec regA regB s
  · obtain rfl : a' = a := Fin.ext (ha'.trans ha.symm)
    obtain rfl : b' = b := Fin.ext (hb'.trans hb.symm)
    rw [← ofNat_toNat_add s.pc 3]
    exact e
  all_goals omega

/-- ADD and MUL commit the same shape: one write to the first operand's register and a new PC (R59);
they differ in the value written. -/
theorem commits_add_or_mul {regA regB : Byte} {s t : State}
    (h : Commits (.add regA regB) s t ∨ Commits (.mul regA regB) s t) :
    ∃ (a : RegIx) (v : Nat) (p : Byte), a.val = regA.toNat ∧ t = (s.writeReg a v).setPc p := by
  obtain ⟨a, b, ha, -, -, e⟩ | ⟨a, b, ha, -, -, e⟩ := h
  · exact ⟨a, _, _, ha, e⟩
  · exact ⟨a, _, _, ha, e⟩

/-- Settles O34: both operands pass the check and the advance of three fits, so the exact result is
written, and the register write is what reduces it modulo 256. -/
theorem addAndMulComplete : Obligations.AddAndMulComplete := by
  intro regA regB a b s ha hb hp
  refine ⟨?_, ?_⟩
  · rw [exec_add_ok ha hb (by omega), ← writeReg_mod]
    rfl
  · rw [exec_mul_ok ha hb (by omega), ← writeReg_mod]
    rfl

/-- Settles O44: a commit writes the first operand's register and PC, a fatal error no register at
all. -/
theorem addAndMulFrame : Obligations.AddAndMulFrame := by
  intro regA regB s t h
  have hcases : (Commits (.add regA regB) s t ∨ Commits (.mul regA regB) s t) ∨
      ∃ k, t = raise k s :=
    h.elim (fun e => (exec_cases e).imp_left .inl) (fun e => (exec_cases e).imp_left .inr)
  obtain hc | ⟨k, rfl⟩ := hcases
  · obtain ⟨a, v, p, ha, rfl⟩ := commits_add_or_mul hc
    exact ⟨fun i hi => reg_writeReg_of_ne s a i v (fun e => hi (e ▸ ha)), rfl, rfl, rfl,
      .inl ⟨rfl, rfl⟩, fun _ => rfl⟩
  · simp

end Sys2Proof.Machine
end

section
/-! PROOF. PUSH and POP where they complete (R64 to R66, D5): the stack pointer as a byte one down or
one up, POP under the conditions of its rule, and what each leaves to the other. -/

namespace Sys2Proof.Machine

/-- A stack pointer above 0 that goes down by one on naturals does so as a byte (R65). -/
theorem ofNat_toNat_sub_one {b : Byte} (h : 1 ≤ b.toNat) :
    BitVec.ofNat 8 (b.toNat - 1) = b - 1#8 := by
  bv_omega

/-- The stack pointer after the second half of a pop, as a byte (R11, R66). -/
theorem sp_incrementSp (s : State) : s.incrementSp.sp = s.sp + 1#8 :=
  (reg_writeReg_same s spIx _).trans (ofNat_toNat_add s.sp 1)

/-- The second half of a pop moves no register but the stack pointer (R66). -/
theorem reg_incrementSp_of_ne (s : State) {i : RegIx} (h : i ≠ 7) :
    s.incrementSp.reg i = s.reg i :=
  reg_writeReg_of_ne s spIx i _ h

/-- The register file after the second half of a pop (R66). -/
theorem incrementSp_regs (s : State) : s.incrementSp.regs = s.regs.set 7 (s.sp + 1#8) :=
  congrArg (s.regs.set 7) (ofNat_toNat_add s.sp 1)

/-- POP of a register with the stack pointer below `STACK_TOP` and room for the advance (R66). -/
theorem exec_pop_ok {reg : Byte} {r : RegIx} {s : State} (hr : r.val = reg.toNat)
    (hsp : s.sp.toNat < s.config.stackTop.toNat) (hp : s.pc.toNat + 2 ≤ 255) :
    exec (.pop reg) s =
      .next ((s.writeReg r (s.byteAt s.sp.toNat).toNat).incrementSp.setPc (s.pc + 2#8)) := by
  obtain ⟨r', hr', -, -, e⟩ | ⟨hbad, -⟩ | ⟨-, hempty, -⟩ | ⟨-, -, hover, -⟩ := execPop_spec reg s
  · obtain rfl : r' = r := Fin.ext (hr'.trans hr.symm)
    rw [← ofNat_toNat_add s.pc 2]
    exact e
  all_goals omega

/-- The registers POP leaves: for register 7 the loaded byte is what goes up by one, for another
register the old stack pointer is (R66, D5). -/
theorem pop_regs (s : State) (r : RegIx) (v : Byte) :
    (s.writeReg r v.toNat).incrementSp.regs =
      if r = 7 then s.regs.set 7 (v + 1#8) else (s.regs.set r.val v).set 7 (s.sp + 1#8) := by
  rw [incrementSp_regs, writeReg_regs, sp_writeReg, BitVec.ofNat_toNat, BitVec.setWidth_eq]
  split
  case isTrue h7 => subst h7; simp
  case isFalse h7 => rfl

/-- What PUSH of a register other than 7 leaves to a POP: the stack one deeper with the register's
value on its top, and PC two further (R65). -/
theorem exec_push_top {reg : Byte} {r : RegIx} {s : State} (hr : r.val = reg.toNat) (hr7 : r ≠ 7)
    (hm : s.mem.wf = true) (hsp : 1 ≤ s.sp.toNat) (hp : s.pc.toNat + 2 ≤ 255) :
    ∃ t, exec (.push reg) s = .next t ∧ t.sp = s.sp - 1#8 ∧ t.config = s.config ∧
      t.byteAt t.sp.toNat = s.reg r ∧ t.pc.toNat = s.pc.toNat + 2 := by
  obtain ⟨t, ht, -, hpc, hstored⟩ := exec_push_stores hr hr7 hm hsp hp
  have hshape := next_unique ht (exec_push_ok hr hsp hp)
  have hdown : t.sp.toNat = s.sp.toNat - 1 := by
    rw [hshape]
    exact sp_decremented s hsp
  refine ⟨t, ht, by bv_omega, (exec_fl_config ht).2, ?_, hpc⟩
  rw [hdown, hstored]

/-- What POP of a register other than 7 leaves: the byte from the top of the stack, the stack pointer
one up, and PC two further (R66). -/
theorem exec_pop_loads {reg : Byte} {r : RegIx} {s : State} (hr : r.val = reg.toNat) (hr7 : r ≠ 7)
    (hsp : s.sp.toNat < s.config.stackTop.toNat) (hp : s.pc.toNat + 2 ≤ 255) :
    ∃ t, exec (.pop reg) s = .next t ∧ t.reg r = s.byteAt s.sp.toNat ∧ t.sp = s.sp + 1#8 ∧
      t.pc.toNat = s.pc.toNat + 2 := by
  refine ⟨_, exec_pop_ok hr hsp hp, ?_, ?_, ?_⟩
  · rw [reg_setPc, reg_incrementSp_of_ne _ hr7, reg_writeReg_same, BitVec.ofNat_toNat,
      BitVec.setWidth_eq]
  · exact (sp_incrementSp _).trans (by rw [sp_writeReg, if_neg hr7])
  · rw [setPc_pc]
    bv_omega

end Sys2Proof.Machine
end

section
/-! PROOF. The statements of 43_stack.md. -/

namespace Sys2Proof.Machine

/-- Settles O35: the register is read after the decrement, so register 7 alone is stored changed. -/
theorem pushCompletes : Obligations.PushCompletes := by
  intro reg r s hr hp hsp
  have hdown := ofNat_toNat_sub_one hsp
  have hstored : (s.writeReg spIx (s.sp.toNat - 1)).reg r =
      if r = 7 then s.reg 7 - 1#8 else s.reg r := by
    simp only [reg_writeReg, ← reg_seven, hdown, eq_comm (a := spIx)]
  rw [exec_push_ok hr hsp (by omega), hstored, ofNat_toNat_add, State.writeReg, ← reg_seven, hdown]
  rfl

/-- Settles O36: the load and the increment are the two register writes, in this order. -/
theorem popCompletes : Obligations.PopCompletes := by
  intro reg r s hr hp hsp
  rw [exec_pop_ok hr hsp (by omega), reg_seven, ← pop_regs]
  rfl

/-- Settles O47: PUSH leaves the value on the top of a stack that is not empty, so POP finds it
there. -/
theorem pushThenPopMovesTheValue : Obligations.PushThenPopMovesTheValue := by
  intro regA regB a b s ha hb ha7 hb7 hm hp hsp htop
  rw [reg_seven] at hsp htop
  obtain ⟨t, ht, hdown, hconfig, hstored, hpc⟩ := exec_push_top ha ha7 hm hsp (by omega)
  have hroom : t.sp.toNat < t.config.stackTop.toNat := by
    rw [hdown, hconfig]
    bv_omega
  obtain ⟨u, hu, hloaded, hup, hpc'⟩ := exec_pop_loads hb hb7 hroom (by omega)
  refine ⟨t, u, ht, hu, hloaded.trans hstored, ?_, by omega⟩
  rw [reg_seven, hup, hdown, BitVec.sub_add_cancel]
  rfl

end Sys2Proof.Machine
end

section
/-! PROOF. CALL and RETURN where they complete (R68, R69, D10): each under the conditions of its rule,
what a CALL leaves to a RETURN, and the register file that a decrement and an increment restore. -/

namespace Sys2Proof.Machine

/-- The registers between the two halves of a push: the stack pointer one down, read as such where the
operand is register 7 (R68, D5). -/
theorem reg_decremented {s : State} (r : RegIx) (h : 1 ≤ s.sp.toNat) :
    (s.writeReg spIx (s.sp.toNat - 1)).reg r = if r = 7 then s.sp - 1#8 else s.reg r := by
  rw [reg_writeReg, ofNat_toNat_sub_one h]
  simp only [eq_comm (a := spIx)]

/-- CALL of a register with the stack pointer above 0: it has no advance that could fault (R68). -/
theorem exec_call_ok {reg : Byte} {r : RegIx} {s : State} (hr : r.val = reg.toNat)
    (hsp : 1 ≤ s.sp.toNat) :
    exec (.call reg) s =
      .next (((s.writeReg spIx (s.sp.toNat - 1)).setMem
        (s.mem.poke (s.sp.toNat - 1) (s.pc + 2#8))).setPc
        (if r = 7 then s.sp - 1#8 else s.reg r)) := by
  obtain ⟨r', hr', -, e⟩ | ⟨hbad, -⟩ | ⟨-, hzero, -⟩ := execCall_spec reg s
  · obtain rfl : r' = r := Fin.ext (hr'.trans hr.symm)
    rw [← ofNat_toNat_add s.pc 2, ← reg_decremented r' hsp]
    exact e
  all_goals omega

/-- RETURN with the stack pointer below `STACK_TOP` (R69). -/
theorem exec_ret_ok {s : State} (hsp : s.sp.toNat < s.config.stackTop.toNat) :
    exec .ret s = .next (s.setPc (s.byteAt s.sp.toNat)).incrementSp := by
  obtain ⟨-, e⟩ | ⟨hempty, -⟩ := execRet_spec s
  · exact e
  · omega

/-- What CALL of a register other than 7 leaves to a RETURN: PC at the register's value, the stack one
deeper with the return address on its top, and no other register moved (R68). -/
theorem exec_call_top {reg : Byte} {r : RegIx} {s : State} (hr : r.val = reg.toNat) (hr7 : r ≠ 7)
    (hm : s.mem.wf = true) (hsp : 1 ≤ s.sp.toNat) :
    ∃ t, exec (.call reg) s = .next t ∧ t.pc = s.reg r ∧ t.config = s.config ∧
      t.regs = s.regs.set 7 (s.sp - 1#8) ∧ t.sp.toNat = s.sp.toNat - 1 ∧
      t.byteAt (s.sp.toNat - 1) = s.pc + 2#8 := by
  refine ⟨_, exec_call_ok hr hsp, if_neg hr7, rfl, ?_, sp_decremented s hsp,
    peek_poke_same s.mem _ _ hm⟩
  exact congrArg (s.regs.set 7) (ofNat_toNat_sub_one hsp)

/-- A stack pointer that went down by one goes up again to the registers as they were (R70). -/
theorem incrementSp_regs_of_decremented {s t : State} (h : t.regs = s.regs.set 7 (s.sp - 1#8)) :
    t.incrementSp.regs = s.regs := by
  have hsp : t.sp = s.sp - 1#8 := by
    simp [State.sp, State.reg, h]
  rw [incrementSp_regs, hsp, h, BitVec.sub_add_cancel, Vector.set_set]
  exact Vector.set_getElem_self _

end Sys2Proof.Machine
end

section
/-! PROOF. The statements of 44_call_return.md. -/

namespace Sys2Proof.Machine

/-- Settles O37: the register is read after the decrement, so the target of CALL R7 alone is
changed. -/
theorem callCompletes : Obligations.CallCompletes := by
  intro reg r s hr _ hsp
  rw [reg_seven] at hsp
  rw [exec_call_ok hr hsp, State.writeReg, ofNat_toNat_sub_one hsp]
  rfl

/-- Settles O38: below `STACK_TOP` the load cannot fail, and the increment is the one register write. -/
theorem returnCompletes : Obligations.ReturnCompletes := by
  intro s hsp
  rw [exec_ret_ok hsp, State.incrementSp, State.writeReg, ofNat_toNat_add]
  rfl

/-- Settles O48: CALL leaves the return address on the top of a stack that is not empty, so RETURN
finds it there. -/
theorem callThenReturnComesBack : Obligations.CallThenReturnComesBack := by
  intro reg r s hr hr7 hm hp hsp htop
  rw [reg_seven] at hsp htop
  obtain ⟨t, ht, hpc, hconfig, hregs, hdown, htopByte⟩ := exec_call_top hr hr7 hm hsp
  have hroom : t.sp.toNat < t.config.stackTop.toNat := by
    rw [hdown, hconfig]
    omega
  have hreturn : (t.byteAt (s.sp.toNat - 1)).toNat = s.pc.toNat + 2 := by
    rw [htopByte]
    bv_omega
  refine ⟨t, _, ht, exec_ret_ok hroom, hpc, hreturn, ?_, incrementSp_regs_of_decremented hregs, rfl⟩
  exact (congrArg (fun a => (t.byteAt a).toNat) hdown).trans hreturn

end Sys2Proof.Machine
end

section
/-! PROOF. The fatal errors by kind: what has to hold for an instruction to raise each of the six, and
where the record of a cycle comes from (R74 to R79). -/

namespace Sys2Proof.Machine

/-- `Raises i s k`: what it takes for the instruction `i` to take the fatal error `k` in `s`. Every kind
but `InvalidRegister` is looked at only behind the register check (R81, D4). `exec_raises` ties it to
`exec`. -/
def Raises (i : Instr) (s : State) (k : ErrorKind) : Prop :=
  match k with
  | .invalidOpcode => False
  | .unsupportedOperation => False
  | .invalidRegister => ∃ b ∈ i.registerOperands, 7 < b.toNat
  | .outOfBounds => (∀ b ∈ i.registerOperands, b.toNat ≤ 7) ∧
      255 < s.pc.toNat + (encode i).length
  | .stackOverflow => (∀ b ∈ i.registerOperands, b.toNat ≤ 7) ∧
      (i.tag = .push ∨ i.tag = .call) ∧ s.sp.toNat = 0
  | .stackUnderflow => (∀ b ∈ i.registerOperands, b.toNat ≤ 7) ∧
      (i.tag = .pop ∨ i.tag = .ret) ∧ s.config.stackTop.toNat ≤ s.sp.toNat

/-- No instruction raises `InvalidOpcode`: its own opcode byte has been decoded (R74). -/
theorem not_raises_invalidOpcode (i : Instr) (s : State) : ¬ Raises i s .invalidOpcode := id

/-- No instruction raises `UnsupportedOperation`: the ALU is asked for ADD and MUL alone (R77). -/
theorem not_raises_unsupportedOperation (i : Instr) (s : State) :
    ¬ Raises i s .unsupportedOperation := id

/-- The register check of the two operands of ADD and MUL, as `Raises` states it (R75). -/
theorem operands_le_pair {a b : Byte} (ha : a.toNat ≤ 7) (hb : b.toNat ≤ 7) :
    ∀ x ∈ [a, b], x.toNat ≤ 7 :=
  List.forall_mem_cons.mpr ⟨ha, List.forall_mem_singleton.mpr hb⟩

/-- All an instruction can do, with the cause of each fatal error: `exec_cases` with the kind known. -/
theorem exec_raises {i : Instr} {s t : State} (h : exec i s = .next t) :
    Commits i s t ∨ ∃ k, Raises i s k ∧ t = raise k s := by
  cases i with
  | halt =>
    obtain ⟨hp, e⟩ | ⟨hp, e⟩ := execHalt_spec s
    · exact .inl ⟨hp, next_unique h e⟩
    · exact .inr ⟨.outOfBounds, ⟨List.forall_mem_nil _, hp⟩, next_unique h e⟩
  | loadImmediate reg value =>
    obtain ⟨r, hr, hp, e⟩ | ⟨hbad, e⟩ | ⟨hreg, hp, e⟩ := execLoadImmediate_spec reg value s
    · exact .inl ⟨r, hr, hp, next_unique h e⟩
    · exact .inr ⟨.invalidRegister, ⟨reg, .head _, hbad⟩, next_unique h e⟩
    · exact .inr ⟨.outOfBounds, ⟨List.forall_mem_singleton.mpr hreg, hp⟩, next_unique h e⟩
  | printRegister reg =>
    obtain ⟨r, hr, hp, e⟩ | ⟨hbad, e⟩ | ⟨hreg, hp, e⟩ := execPrintRegister_spec reg s
    · exact .inl ⟨r, hr, hp, next_unique h e⟩
    · exact .inr ⟨.invalidRegister, ⟨reg, .head _, hbad⟩, next_unique h e⟩
    · exact .inr ⟨.outOfBounds, ⟨List.forall_mem_singleton.mpr hreg, hp⟩, next_unique h e⟩
  | mul regA regB =>
    obtain ⟨a, b, ha, hb, hp, e⟩ | ⟨hbad, e⟩ | ⟨hA, hB, hp, e⟩ := execMul_spec regA regB s
    · exact .inl ⟨a, b, ha, hb, hp, next_unique h e⟩
    · exact .inr ⟨.invalidRegister, by simpa [Raises, Instr.registerOperands] using hbad,
        next_unique h e⟩
    · exact .inr ⟨.outOfBounds, ⟨operands_le_pair hA hB, hp⟩, next_unique h e⟩
  | add regA regB =>
    obtain ⟨a, b, ha, hb, hp, e⟩ | ⟨hbad, e⟩ | ⟨hA, hB, hp, e⟩ := execAdd_spec regA regB s
    · exact .inl ⟨a, b, ha, hb, hp, next_unique h e⟩
    · exact .inr ⟨.invalidRegister, by simpa [Raises, Instr.registerOperands] using hbad,
        next_unique h e⟩
    · exact .inr ⟨.outOfBounds, ⟨operands_le_pair hA hB, hp⟩, next_unique h e⟩
  | push reg =>
    obtain ⟨r, hr, hsp, hp, e⟩ | ⟨hbad, e⟩ | ⟨hreg, hsp, e⟩ | ⟨hreg, -, hp, e⟩ :=
      execPush_spec reg s
    · exact .inl ⟨r, hr, hsp, hp, next_unique h e⟩
    · exact .inr ⟨.invalidRegister, ⟨reg, .head _, hbad⟩, next_unique h e⟩
    · exact .inr ⟨.stackOverflow, ⟨List.forall_mem_singleton.mpr hreg, .inl rfl, hsp⟩,
        next_unique h e⟩
    · exact .inr ⟨.outOfBounds, ⟨List.forall_mem_singleton.mpr hreg, hp⟩, next_unique h e⟩
  | pop reg =>
    obtain ⟨r, hr, hsp, hp, e⟩ | ⟨hbad, e⟩ | ⟨hreg, hsp, e⟩ | ⟨hreg, -, hp, e⟩ :=
      execPop_spec reg s
    · exact .inl ⟨r, hr, hsp, hp, next_unique h e⟩
    · exact .inr ⟨.invalidRegister, ⟨reg, .head _, hbad⟩, next_unique h e⟩
    · exact .inr ⟨.stackUnderflow, ⟨List.forall_mem_singleton.mpr hreg, .inl rfl, hsp⟩,
        next_unique h e⟩
    · exact .inr ⟨.outOfBounds, ⟨List.forall_mem_singleton.mpr hreg, hp⟩, next_unique h e⟩
  | call reg =>
    obtain ⟨r, hr, hsp, e⟩ | ⟨hbad, e⟩ | ⟨hreg, hsp, e⟩ := execCall_spec reg s
    · exact .inl ⟨r, hr, hsp, next_unique h e⟩
    · exact .inr ⟨.invalidRegister, ⟨reg, .head _, hbad⟩, next_unique h e⟩
    · exact .inr ⟨.stackOverflow, ⟨List.forall_mem_singleton.mpr hreg, .inr rfl, hsp⟩,
        next_unique h e⟩
  | ret =>
    obtain ⟨hsp, e⟩ | ⟨hsp, e⟩ := execRet_spec s
    · exact .inl ⟨hsp, next_unique h e⟩
    · exact .inr ⟨.stackUnderflow, ⟨List.forall_mem_nil _, .inr rfl, hsp⟩, next_unique h e⟩

/-- An operand byte that names a register is at most 7 (R9, R12). -/
theorem operand_le_of_val_eq {r : RegIx} {b : Byte} (h : r.val = b.toNat) : b.toNat ≤ 7 := by
  omega

/-- A committed instruction's register operands have passed the check (R12, R75). -/
theorem commits_operands_le {i : Instr} {s t : State} (h : Commits i s t) :
    ∀ b ∈ i.registerOperands, b.toNat ≤ 7 := by
  cases i with
  | halt => exact List.forall_mem_nil _
  | mul regA regB =>
    obtain ⟨a, b, ha, hb, -⟩ := h
    exact operands_le_pair (operand_le_of_val_eq ha) (operand_le_of_val_eq hb)
  | add regA regB =>
    obtain ⟨a, b, ha, hb, -⟩ := h
    exact operands_le_pair (operand_le_of_val_eq ha) (operand_le_of_val_eq hb)
  | ret => exact List.forall_mem_nil _
  | _ =>
    obtain ⟨r, hr, -⟩ := h
    exact List.forall_mem_singleton.mpr (operand_le_of_val_eq hr)

/-- Where a register operand is out of range, no other error is reached (R81, D4). -/
theorem eq_invalidRegister_of_raises {i : Instr} {s : State} {k : ErrorKind} (h : Raises i s k)
    (hbad : ∃ b ∈ i.registerOperands, 7 < b.toNat) : k = .invalidRegister := by
  obtain ⟨b, hb, h7⟩ := hbad
  cases k with
  | invalidRegister => rfl
  | invalidOpcode => exact absurd h (not_raises_invalidOpcode i s)
  | unsupportedOperation => exact absurd h (not_raises_unsupportedOperation i s)
  | _ =>
    obtain ⟨hregs, -⟩ := h
    exact absurd (hregs b hb) (Nat.not_le.mpr h7)

/-- An instruction with a register operand above 7 takes `InvalidRegister` (R75). -/
theorem exec_invalidRegister {i : Instr} (s : State)
    (hbad : ∃ b ∈ i.registerOperands, 7 < b.toNat) :
    exec i s = .next (raise .invalidRegister s) := by
  obtain ⟨t, ht⟩ := exec_answers_next i s
  obtain hc | ⟨k, hk, rfl⟩ := exec_raises ht
  · obtain ⟨b, hb, h7⟩ := hbad
    exact absurd (commits_operands_le hc b hb) (Nat.not_le.mpr h7)
  · rwa [eq_invalidRegister_of_raises hk hbad] at ht

/-- PUSH with the stack pointer at 0 takes `StackOverflow` (R78). -/
theorem exec_push_overflow {reg : Byte} {s : State} (hreg : reg.toNat ≤ 7) (hsp : s.sp.toNat = 0) :
    exec (.push reg) s = .next (raise .stackOverflow s) := by
  obtain ⟨r, -, hpos, -⟩ | ⟨hbad, -⟩ | ⟨-, -, e⟩ | ⟨-, hpos, -⟩ := execPush_spec reg s
  case inr.inr.inl => exact e
  all_goals omega

/-- CALL with the stack pointer at 0 takes `StackOverflow` (R78, D10). -/
theorem exec_call_overflow {reg : Byte} {s : State} (hreg : reg.toNat ≤ 7) (hsp : s.sp.toNat = 0) :
    exec (.call reg) s = .next (raise .stackOverflow s) := by
  obtain ⟨r, -, hpos, -⟩ | ⟨hbad, -⟩ | ⟨-, -, e⟩ := execCall_spec reg s
  case inr.inr => exact e
  all_goals omega

/-- POP at or above `STACK_TOP` takes `StackUnderflow` (R79). -/
theorem exec_pop_underflow {reg : Byte} {s : State} (hreg : reg.toNat ≤ 7)
    (hsp : s.config.stackTop.toNat ≤ s.sp.toNat) :
    exec (.pop reg) s = .next (raise .stackUnderflow s) := by
  obtain ⟨r, -, hroom, -⟩ | ⟨hbad, -⟩ | ⟨-, -, e⟩ | ⟨-, hroom, -⟩ := execPop_spec reg s
  case inr.inr.inl => exact e
  all_goals omega

/-- RETURN at or above `STACK_TOP` takes `StackUnderflow` (R79, D10). -/
theorem exec_ret_underflow {s : State} (hsp : s.config.stackTop.toNat ≤ s.sp.toNat) :
    exec .ret s = .next (raise .stackUnderflow s) := by
  obtain ⟨hroom, -⟩ | ⟨-, e⟩ := execRet_spec s
  · omega
  · exact e

/-- A committed instruction writes no fault record (R80). -/
theorem commits_fault {i : Instr} {s t : State} (h : Commits i s t) : t.fault = s.fault := by
  cases i with
  | halt => obtain ⟨-, rfl⟩ := h; rfl
  | loadImmediate reg value => obtain ⟨r, -, -, rfl⟩ := h; rfl
  | printRegister reg => obtain ⟨r, -, -, rfl⟩ := h; rfl
  | mul regA regB => obtain ⟨a, b, -, -, -, rfl⟩ := h; rfl
  | add regA regB => obtain ⟨a, b, -, -, -, rfl⟩ := h; rfl
  | push reg => obtain ⟨r, -, -, -, rfl⟩ := h; rfl
  | pop reg => obtain ⟨r, -, -, -, rfl⟩ := h; rfl
  | call reg => obtain ⟨r, -, -, rfl⟩ := h; rfl
  | ret => obtain ⟨-, rfl⟩ := h; rfl

/-- The record taken by a fatal error has that error's kind (R19, R80). -/
theorem kind_of_raise_fault {k : ErrorKind} {s : State} {f : FaultRecord}
    (h : (raise k s).fault = some f) : f.kind = k := by
  cases h
  rfl

/-- A record found after an instruction stood there before, or the instruction raises its kind. -/
theorem exec_fault {i : Instr} {s t : State} {f : FaultRecord} (h : exec i s = .next t)
    (hf : t.fault = some f) : s.fault = some f ∨ Raises i s f.kind := by
  obtain hc | ⟨k, hk, rfl⟩ := exec_raises h
  · exact .inl ((commits_fault hc).symm.trans hf)
  · exact .inr ((kind_of_raise_fault hf).symm ▸ hk)

/-- A record found after a step stood there before, or the fetch (R47), the decode (R48) or an
instruction raises its kind. -/
theorem step_fault {s t : State} {f : FaultRecord} (h : step s = .next t)
    (hf : t.fault = some f) :
    s.fault = some f ∨ (254 ≤ s.pc.toNat ∧ f.kind = .outOfBounds) ∨
      (s.byteAt s.pc.toNat ∉ validOpcodes ∧ f.kind = .invalidOpcode) ∨
      ∃ i, Raises i s f.kind := by
  obtain ⟨-, e⟩ | ⟨-, hp, e⟩ | ⟨-, -, hd, e⟩ | ⟨d, -, -, -, e⟩ := step_spec s
  · exact .inl (next_unique h e ▸ hf)
  · exact .inr (.inl ⟨hp, kind_of_raise_fault (next_unique h e ▸ hf)⟩)
  · exact .inr (.inr (.inl ⟨not_mem_validOpcodes hd, kind_of_raise_fault (next_unique h e ▸ hf)⟩))
  · exact (exec_fault (e.symm.trans h) hf).imp_right fun hk => .inr (.inr ⟨_, hk⟩)

end Sys2Proof.Machine
end

section
/-! PROOF. The statements of 60_exceptions.md. -/

namespace Sys2Proof.Machine

/-- Settles O17: the decode of the byte at PC is the one place `InvalidOpcode` is raised from. -/
theorem invalidOpcodeFaults : Obligations.InvalidOpcodeFaults := by
  intro s hs hp
  refine ⟨fun hd => step_invalidOpcode hs hp hd, fun hvalid t f h hf hkind => ?_⟩
  obtain hold | ⟨hp', -⟩ | ⟨hinvalid, -⟩ | ⟨i, hk⟩ := step_fault h hf
  · exact hold
  · omega
  · exact absurd hvalid hinvalid
  · rw [hkind] at hk
    exact absurd hk (not_raises_invalidOpcode i s)

/-- Settles O19: every handler ends in `complete`, which answers a next state. -/
theorem everyStepAnswersNext : Obligations.EveryStepAnswersNext :=
  ⟨step_answers_next, exec_answers_next⟩

/-- Settles O20: neither the fetch, nor the decode, nor an instruction raises `UnsupportedOperation`. -/
theorem unsupportedOperationIsUnreachable : Obligations.UnsupportedOperationIsUnreachable := by
  refine ⟨fun n a b s => rfl, fun s t f h hf hkind => ?_⟩
  have hstep := step_fault h hf
  rw [hkind] at hstep
  obtain hold | ⟨-, hfetch⟩ | ⟨-, hdecode⟩ | ⟨i, hk⟩ := hstep
  · exact hold
  · cases hfetch
  · cases hdecode
  · exact absurd hk (not_raises_unsupportedOperation i s)

/-- Settles O39: the register check comes before every other cause of a fatal error. -/
theorem invalidRegisterFaults : Obligations.InvalidRegisterFaults := by
  intro i s
  refine ⟨exec_invalidRegister s, fun hregs t f h hf hkind => ?_⟩
  obtain hold | hk := exec_fault h hf
  · exact hold
  · rw [hkind] at hk
    obtain ⟨b, hb, h7⟩ := hk
    exact absurd (hregs b hb) (Nat.not_le.mpr h7)

/-- Settles O40: PUSH and CALL at 0 have no other end, and no other cause has this kind. -/
theorem stackOverflowFaults : Obligations.StackOverflowFaults := by
  refine ⟨fun reg s hreg hsp => ?_, fun i s t f h hf hkind hnew => ?_⟩
  · have hzero : s.sp.toNat = 0 := congrArg BitVec.toNat hsp
    exact ⟨exec_push_overflow hreg hzero, exec_call_overflow hreg hzero⟩
  · have hk := (exec_fault h hf).resolve_left hnew
    rw [hkind] at hk
    obtain ⟨-, htag, hzero⟩ := hk
    exact ⟨htag, BitVec.eq_of_toNat_eq hzero⟩

/-- Settles O41: POP and RETURN on an empty stack have no other end, and no other cause has this
kind. -/
theorem stackUnderflowFaults : Obligations.StackUnderflowFaults := by
  refine ⟨fun s hsp => ⟨exec_ret_underflow hsp, fun reg hreg => exec_pop_underflow hreg hsp⟩,
    fun i s t f h hf hkind hnew => ?_⟩
  have hk := (exec_fault h hf).resolve_left hnew
  rw [hkind] at hk
  obtain ⟨-, hcause⟩ := hk
  exact hcause

end Sys2Proof.Machine
end

section
/-! PROOF. The host's transactions and what is kept under them: where the placed bytes of an image end,
what load and run answer, that runs compose, and the invariant of 10_state.md section 8 over a fatal
error, a committed instruction, the image load and a run. -/

namespace Sys2Proof.Machine

/-- Bytes placed from `a` up leave every address past the last of them alone. -/
theorem peek_placeBytes_above (m : Memory) {a b : Nat} {bs : List Byte} (hb : a + bs.length ≤ b) :
    (m.placeBytes a bs).peek b = m.peek b := by
  induction bs generalizing m a with
  | nil => rfl
  | cons c bs ih =>
    rw [List.length_cons] at hb
    rw [Memory.placeBytes, ih _ (by omega)]
    split
    · rfl
    · exact peek_poke_other m a b c (by omega)

/-- A cell of a constructed machine after the image load: the image's byte, or the reset content past
its end (R22, R91). -/
theorem peek_loadImage_construct (c : Config) (image : List Byte) {a : Nat} (ha : a ≤ 255) :
    (loadImage image (State.construct c)).mem.peek a = image.getD a 0#8 := by
  by_cases hin : a < image.length
  · have hread : (Memory.placeBytes [] 0 image).peek (0 + a) = image[a] :=
      peek_placeBytes rfl hin (by omega)
    rw [Nat.zero_add] at hread
    exact hread.trans (List.getD_eq_getElem image 0#8 hin).symm
  · rw [List.getD_eq_default _ _ (by omega)]
    exact peek_placeBytes_above [] (by omega)

/-- The load of an image that fits (R91). -/
theorem load_construct_ok (c : Config) {image : List Byte} (h : image.length ≤ 256) :
    Session.load image (Session.construct c) =
      .ok ⟨.loaded, loadImage image (State.construct c)⟩ :=
  if_neg (by omega)

/-- The load of a longer image (R91, D11). -/
theorem load_construct_error (c : Config) {image : List Byte} (h : 256 < image.length) :
    Session.load image (Session.construct c) = .error (.imageTooLong image.length) :=
  if_pos h

/-- A load that succeeds on a constructed session leaves the loaded machine. -/
theorem machine_of_load {c : Config} {image : List Byte} {h : Session}
    (hload : Session.load image (Session.construct c) = .ok h) :
    h.machine = loadImage image (State.construct c) := by
  obtain hlong | hfits := Nat.lt_or_ge 256 image.length
  · cases (load_construct_error c hlong).symm.trans hload
  · cases (load_construct_ok c hfits).symm.trans hload
    rfl

/-- A load after the first, or after the run (R91, R94). -/
theorem load_outOfOrder {h : Session} (image : List Byte) (hphase : h.phase ≠ .constructed) :
    Session.load image h = .error .loadOutOfOrder := by
  unfold Session.load
  split
  · exact absurd ‹_› hphase
  · rfl
  · rfl

/-- A run that succeeds leaves the machine of its cycles (R54, R94). -/
theorem machine_of_run {fuel : Nat} {h h' : Session} {r : RunResult}
    (hrun : Session.run fuel h = .ok (h', r)) : h'.machine = runCycles fuel h.machine := by
  unfold Session.run at hrun
  split at hrun
  · cases hrun
  · cases hrun; rfl
  · cases hrun; rfl

/-- Driving on for `k` more cycles is driving from where the first `n` have led (R54). -/
theorem runCycles_add (n k : Nat) (s : State) :
    runCycles (n + k) s = runCycles k (runCycles n s) := by
  induction n generalizing s with
  | zero => rw [Nat.zero_add, runCycles]
  | succ n ih =>
    by_cases hs : s.status = .running
    · obtain ⟨t, ht⟩ := step_answers_next s
      rw [Nat.succ_add, runCycles_next _ s t hs ht, runCycles_next _ s t hs ht, ih t]
    · simp only [runCycles_stopped _ s hs]

/-- What every step keeps holds after any number of cycles. -/
theorem runCycles_keeps {P : State → Prop} (hstep : ∀ s t, P s → step s = .next t → P t) (n : Nat)
    {s : State} (h : P s) : P (runCycles n s) := by
  induction n generalizing s with
  | zero => exact h
  | succ n ih =>
    by_cases hs : s.status = .running
    · obtain ⟨t, ht⟩ := step_answers_next s
      rw [runCycles_next n s t hs ht]
      exact ih (hstep s t h ht)
    · rwa [runCycles_stopped _ s hs]

/-- A committed instruction keeps memory in canonical form: what PUSH and CALL store lies below the stack
pointer, inside memory. -/
theorem commits_wf {i : Instr} {s t : State} (h : Commits i s t) (hm : s.mem.wf = true) :
    t.mem.wf = true := by
  have hstore {reg : Byte} (hc : Commits (.push reg) s t ∨ Commits (.call reg) s t) :
      t.mem.wf = true := by
    obtain ⟨-, v, p, rfl⟩ := commits_push_or_call hc
    have hsp := s.sp.isLt
    exact wf_poke s.mem _ v hm (by omega)
  cases i with
  | halt => obtain ⟨-, rfl⟩ := h; exact hm
  | loadImmediate reg value => obtain ⟨r, -, -, rfl⟩ := h; exact hm
  | printRegister reg => obtain ⟨r, -, -, rfl⟩ := h; exact hm
  | mul regA regB => obtain ⟨a, b, -, -, -, rfl⟩ := h; exact hm
  | add regA regB => obtain ⟨a, b, -, -, -, rfl⟩ := h; exact hm
  | push reg => exact hstore (.inl h)
  | pop reg => obtain ⟨r, -, -, -, rfl⟩ := h; exact hm
  | call reg => exact hstore (.inr h)
  | ret => obtain ⟨-, rfl⟩ := h; exact hm

/-- A running machine that meets the invariant holds no fault record (R19). -/
theorem fault_eq_none_of_running {s : State} (hinv : s.Inv) (hs : s.status = .running) :
    s.fault = none := by
  cases hf : s.fault with
  | none => rfl
  | some f =>
    have hfaulted := hinv.fault_written.mpr (by rw [hf]; rfl)
    cases hs.symm.trans hfaulted

/-- A machine that is not faulted and holds no record meets the invariant's clauses on faults. -/
theorem inv_of_no_fault {t : State} (hm : t.mem.wf = true) (hfl : t.fl = 0#8)
    (hstatus : t.status ≠ .faulted) (hfault : t.fault = none)
    (hhalt : t.status = .halted → 1 ≤ t.pc.toNat ∧ t.byteAt (t.pc.toNat - 1) = 0x01#8) : t.Inv where
  memory_wf := hm
  fl_zero := hfl
  fault_written := iff_of_false hstatus (by rw [hfault]; decide)
  fault_precise f hf := by cases hfault.symm.trans hf
  halt_byte := hhalt

/-- The fault entry keeps the invariant for every kind but `UnsupportedOperation`: its record names PC
and the byte there (R80). -/
theorem raise_inv {s : State} {k : ErrorKind} (hinv : s.Inv) (hk : k ≠ .unsupportedOperation) :
    (raise k s).Inv where
  memory_wf := hinv.memory_wf
  fl_zero := hinv.fl_zero
  fault_written := by simp
  fault_precise f hf := by cases hf; exact ⟨hk, rfl, rfl⟩
  halt_byte hhalted := by cases hhalted

/-- A committed HALT leaves PC one past the byte it was fetched from (R52, D15). -/
theorem commits_halt_byte {s t : State} (hc : Commits .halt s t)
    (hop : s.byteAt s.pc.toNat = 0x01#8) :
    1 ≤ t.pc.toNat ∧ t.byteAt (t.pc.toNat - 1) = 0x01#8 := by
  obtain ⟨hp, rfl⟩ := hc
  have hpc : ((s.setPc (BitVec.ofNat 8 (s.pc.toNat + 1))).setStatus .halted).pc.toNat =
      s.pc.toNat + 1 := setPc_ofNat_toNat s hp
  rw [hpc]
  exact ⟨by omega, hop⟩

/-- A committed instruction keeps the invariant of a running machine, HALT where its byte is at PC. -/
theorem commits_inv {i : Instr} {s t : State} (hinv : s.Inv) (hs : s.status = .running)
    (hc : Commits i s t) (hop : i = .halt → s.byteAt s.pc.toNat = 0x01#8) : t.Inv := by
  obtain ⟨hfl, -⟩ := commits_fl_config hc
  have hfault : t.fault = none := (commits_fault hc).trans (fault_eq_none_of_running hinv hs)
  refine inv_of_no_fault (commits_wf hc hinv.memory_wf) (hfl.trans hinv.fl_zero)
    (commits_not_faulted hc hs) hfault fun hhalted => ?_
  obtain rfl := eq_halt_of_commits_halted hc hs hhalted
  exact commits_halt_byte hc (hop rfl)

/-- A fatal error that a step takes where there was no record is no `UnsupportedOperation` (R77). -/
theorem kind_ne_unsupportedOperation {s : State} {k : ErrorKind} (hfault : s.fault = none)
    (h : step s = .next (raise k s)) : k ≠ .unsupportedOperation := by
  intro hk
  obtain ⟨-, hunreachable⟩ := unsupportedOperationIsUnreachable
  cases hfault.symm.trans (hunreachable s _ _ h rfl hk)

/-- The image load keeps the invariant of a running machine: it changes memory alone (R91). -/
theorem loadImage_inv {s : State} (image : List Byte) (hinv : s.Inv) (hs : s.status = .running) :
    (loadImage image s).Inv := by
  have hrunning : (loadImage image s).status = .running := hs
  have hfault := fault_eq_none_of_running hinv hs
  refine inv_of_no_fault (loadImage_wf image s hinv.memory_wf) hinv.fl_zero ?_ hfault
    fun hhalted => ?_
  · rw [hrunning]
    decide
  · cases hrunning.symm.trans hhalted

end Sys2Proof.Machine
end

section
/-! PROOF. The statements of 70_reset_and_hazards.md. -/

namespace Sys2Proof.Machine

/-- Settles O22, by the cases of a step: a stopped machine stays, and from a running one, which holds no
record, both the fault entry and a committed instruction keep every clause. -/
theorem stepKeepsTheInvariant : Obligations.StepKeepsTheInvariant := by
  intro s t hinv h
  obtain ⟨-, rfl⟩ | ⟨hs, k, rfl⟩ | ⟨d, hs, -, hd, hc⟩ := step_cases h
  · exact hinv
  · exact raise_inv hinv (kind_ne_unsupportedOperation (fault_eq_none_of_running hinv hs) h)
  · exact commits_inv hinv hs hc (assemble_eq_halt_iff _ _ hd).mp

/-- Settles O24: the constructed machine meets the invariant, and the load and every step keep it. -/
theorem everyRunKeepsTheInvariant : Obligations.EveryRunKeepsTheInvariant := by
  intro c image h h' fuel r hload hrun
  rw [machine_of_run hrun, machine_of_load hload]
  exact runCycles_keeps stepKeepsTheInvariant fuel (loadImage_inv image (construct_inv c) rfl)

/-- Settles O2: the placed bytes read back, and past them stands the reset content. -/
theorem loadedImageIsMemory : Obligations.LoadedImageIsMemory := by
  intro c image hlen
  refine ⟨_, load_construct_ok c hlen, rfl, rfl, loadImage_wf image _ rfl, fun a ha => ?_⟩
  rw [memRead_ok _ a ha, peek_loadImage_construct c image ha]

/-- Settles O5: the further cycles are driven from the end, where the machine is stopped. -/
theorem endedRunKeepsItsEnd : Obligations.EndedRunKeepsItsEnd := by
  intro n m s hend hnm
  obtain ⟨k, rfl⟩ := Nat.exists_eq_add_of_le hnm
  rw [runCycles_add n k s, runCycles_stopped k _ hend]

/-- Settles O3, each transaction by the phase and status it is refused in. -/
theorem hostTransactionsOutOfOrderAreRefused : Obligations.HostTransactionsOutOfOrderAreRefused := by
  refine ⟨fun c image hlong => load_construct_error c hlong,
    fun h image hphase => load_outOfOrder image hphase, fun h fuel hphase => ?_,
    fun h q hphase hs => ?_⟩
  · simp only [Session.run, hphase]
  · simp only [Session.inspect, hphase, hs]

end Sys2Proof.Machine
end
